-- ==== Sys2Proof/Word.lean ====
section
/-! DEFINITION. The bit-vector types of the machine (00_scope R5, R6): every value is an unsigned integer of a stated
width. Only names stand here; every operation on them is in Decode.lean or under Machine/. -/

namespace Sys2Proof

/-- A memory byte, a general register, a timer, the immediate `kk` (R11, R16, R30, R52). -/
abbrev Byte := BitVec 8

/-- An instruction word, the program counter, the index register, a call-stack slot (R13, R14, R15, R50). -/
abbrev Word := BitVec 16

/-- A 4-bit register selector `x` or `y`, the sprite height `n`, and `wait_dest` (R6, R11, R18). -/
abbrev Nibble := BitVec 4

/-- The 12-bit address immediate `nnn` (R6, R52). -/
abbrev Addr12 := BitVec 12

end Sys2Proof
end

