-- ==== Sys2Proof/Syntax.lean ====
section
/-! DEFINITION. The 35 instructions of 30_encoding R55, one constructor per row of spec/opcode_table.json, each with the
fields its pattern names (R51). The `y` field of `8xy6` and `8xyE` is kept although the hardware ignores it (R57), so
that an instruction determines its word (log 25). -/

namespace Sys2Proof

inductive Instr where
  /-- `00E0` CLS (R131) -/
  | cls
  /-- `00EE` RET (R91) -/
  | ret
  /-- `0nnn` SYS nnn, any `nnn` but 0x0E0 and 0x0EE (R92) -/
  | sys (nnn : Addr12)
  /-- `1nnn` JP nnn (R93) -/
  | jp (nnn : Addr12)
  /-- `2nnn` CALL nnn (R94) -/
  | call (nnn : Addr12)
  /-- `3xkk` SE Vx, kk (R95) -/
  | seImm (x : Nibble) (kk : Byte)
  /-- `4xkk` SNE Vx, kk (R96) -/
  | sneImm (x : Nibble) (kk : Byte)
  /-- `5xy0` SE Vx, Vy (R97) -/
  | seReg (x y : Nibble)
  /-- `6xkk` LD Vx, kk (R101) -/
  | ldImm (x : Nibble) (kk : Byte)
  /-- `7xkk` ADD Vx, kk (R102) -/
  | addImm (x : Nibble) (kk : Byte)
  /-- `8xy0` LD Vx, Vy (R103) -/
  | ldReg (x y : Nibble)
  /-- `8xy1` OR Vx, Vy (R104) -/
  | orReg (x y : Nibble)
  /-- `8xy2` AND Vx, Vy (R105) -/
  | andReg (x y : Nibble)
  /-- `8xy3` XOR Vx, Vy (R106) -/
  | xorReg (x y : Nibble)
  /-- `8xy4` ADD Vx, Vy (R107) -/
  | addReg (x y : Nibble)
  /-- `8xy5` SUB Vx, Vy (R108) -/
  | sub (x y : Nibble)
  /-- `8xy6` SHR Vx, `y` ignored (R109) -/
  | shr (x y : Nibble)
  /-- `8xy7` SUBN Vx, Vy (R110) -/
  | subn (x y : Nibble)
  /-- `8xyE` SHL Vx, `y` ignored (R111) -/
  | shl (x y : Nibble)
  /-- `9xy0` SNE Vx, Vy (R98) -/
  | sneReg (x y : Nibble)
  /-- `Annn` LD I, nnn (R121) -/
  | ldI (nnn : Addr12)
  /-- `Bnnn` JP V0, nnn (R99) -/
  | jpV0 (nnn : Addr12)
  /-- `Cxkk` RND Vx, kk (R112) -/
  | rnd (x : Nibble) (kk : Byte)
  /-- `Dxyn` DRW Vx, Vy, n (R132) -/
  | drw (x y n : Nibble)
  /-- `Ex9E` SKP Vx (R140) -/
  | skp (x : Nibble)
  /-- `ExA1` SKNP Vx (R141) -/
  | sknp (x : Nibble)
  /-- `Fx07` LD Vx, DT (R142) -/
  | ldVxDt (x : Nibble)
  /-- `Fx0A` LD Vx, K (R143) -/
  | ldVxK (x : Nibble)
  /-- `Fx15` LD DT, Vx (R144) -/
  | ldDtVx (x : Nibble)
  /-- `Fx18` LD ST, Vx (R145) -/
  | ldStVx (x : Nibble)
  /-- `Fx1E` ADD I, Vx (R122) -/
  | addI (x : Nibble)
  /-- `Fx29` LD F, Vx (R123) -/
  | ldF (x : Nibble)
  /-- `Fx33` LD B, Vx (R124) -/
  | ldB (x : Nibble)
  /-- `Fx55` LD [I], Vx (R125) -/
  | stRegs (x : Nibble)
  /-- `Fx65` LD Vx, [I] (R126) -/
  | ldRegs (x : Nibble)
deriving DecidableEq, Repr

end Sys2Proof
end

