-- ==== Sys2Proof/Decode.lean ====
section
/-! DEFINITION. The decoder of 30_encoding R53 and, after it, the encoder written from the same table (R51, R55). The
decoder is total: an illegal word is rejected by name, with the word (R56, R163). -/

namespace Sys2Proof

/-- `op`, `w[15:12]` (R6). -/
def opField (w : Word) : Nibble := w.extractLsb' 12 4

/-- `x`, `w[11:8]` (R6, C1). -/
def xField (w : Word) : Nibble := w.extractLsb' 8 4

/-- `y`, `w[7:4]` (R6, C1). -/
def yField (w : Word) : Nibble := w.extractLsb' 4 4

/-- `n`, `w[3:0]` (R6). -/
def nField (w : Word) : Nibble := w.extractLsb' 0 4

/-- `kk`, `w[7:0]` (R6). -/
def kkField (w : Word) : Byte := w.extractLsb' 0 8

/-- `nnn`, `w[11:0]` (R6). -/
def nnnField (w : Word) : Addr12 := w.extractLsb' 0 12

/-- The decoder's answer: an instruction, or R53's verdict Unknown carrying the word. -/
inductive Verdict where
  | instr (i : Instr)
  | unknown (w : Word)
deriving DecidableEq, Repr

/-- Group 0 (R53, R57): the two fixed words take priority over `0nnn`. -/
def decode0 (w : Word) : Verdict :=
  if w = 0x00E0#16 then .instr .cls
  else if w = 0x00EE#16 then .instr .ret
  else .instr (.sys (nnnField w))

/-- Group 8 (R53): the register ALU group, selected by `n`. -/
def decode8 (w : Word) : Verdict :=
  let x := xField w
  let y := yField w
  match (nField w).toNat with
  | 0x0 => .instr (.ldReg x y)
  | 0x1 => .instr (.orReg x y)
  | 0x2 => .instr (.andReg x y)
  | 0x3 => .instr (.xorReg x y)
  | 0x4 => .instr (.addReg x y)
  | 0x5 => .instr (.sub x y)
  | 0x6 => .instr (.shr x y)
  | 0x7 => .instr (.subn x y)
  | 0xE => .instr (.shl x y)
  | _ => .unknown w

/-- Group E (R53): the key skips, selected by the whole low byte. -/
def decodeE (w : Word) : Verdict :=
  if kkField w = 0x9E#8 then .instr (.skp (xField w))
  else if kkField w = 0xA1#8 then .instr (.sknp (xField w))
  else .unknown w

/-- Group F (R53), selected by the whole low byte. -/
def decodeF (w : Word) : Verdict :=
  let x := xField w
  match (kkField w).toNat with
  | 0x07 => .instr (.ldVxDt x)
  | 0x0A => .instr (.ldVxK x)
  | 0x15 => .instr (.ldDtVx x)
  | 0x18 => .instr (.ldStVx x)
  | 0x1E => .instr (.addI x)
  | 0x29 => .instr (.ldF x)
  | 0x33 => .instr (.ldB x)
  | 0x55 => .instr (.stRegs x)
  | 0x65 => .instr (.ldRegs x)
  | _ => .unknown w

/-- The decoder of R53: total on the 65536 words, every fixed digit of a pattern compared (D8, log 11). -/
def decodeWord (w : Word) : Verdict :=
  let x := xField w
  let y := yField w
  let n := nField w
  let kk := kkField w
  let nnn := nnnField w
  match (opField w).toNat with
  | 0x0 => decode0 w
  | 0x1 => .instr (.jp nnn)
  | 0x2 => .instr (.call nnn)
  | 0x3 => .instr (.seImm x kk)
  | 0x4 => .instr (.sneImm x kk)
  | 0x5 => if n = 0x0#4 then .instr (.seReg x y) else .unknown w
  | 0x6 => .instr (.ldImm x kk)
  | 0x7 => .instr (.addImm x kk)
  | 0x8 => decode8 w
  | 0x9 => if n = 0x0#4 then .instr (.sneReg x y) else .unknown w
  | 0xA => .instr (.ldI nnn)
  | 0xB => .instr (.jpV0 nnn)
  | 0xC => .instr (.rnd x kk)
  | 0xD => .instr (.drw x y n)
  | 0xE => decodeE w
  | 0xF => decodeF w
  | _ => .unknown w

/-- The word of two bytes, the byte at the lower address high (R32). -/
def wordOfBytes (hi lo : Byte) : Word := hi ++ lo

/-- The two bytes of a word in memory order: high byte first (R32). -/
def bytesOfWord (w : Word) : List Byte := [w.extractLsb' 8 8, w.extractLsb' 0 8]

/-- What the decoder reads from a list of bytes: an instruction and the bytes after its two (R50), or a rejection. -/
inductive DecodeResult where
  | instr (i : Instr) (rest : List Byte)
  | unknown (w : Word)
  | tooFewBytes
deriving DecidableEq, Repr

/-- Decode the instruction at the head of a byte list; total on any bytes (R32, R50, R53). -/
def decode : List Byte → DecodeResult
  | hi :: lo :: rest =>
    match decodeWord (wordOfBytes hi lo) with
    | .instr i => .instr i rest
    | .unknown w => .unknown w
  | [_] => .tooFewBytes
  | [] => .tooFewBytes

/-- Format NNN (R51). -/
def packNnn (op : Nibble) (nnn : Addr12) : Word := op ++ nnn

/-- Format XKK (R51); also format XF, whose minor opcode is the whole low byte. -/
def packXkk (op x : Nibble) (kk : Byte) : Word := (op ++ x : BitVec 8) ++ kk

/-- Format XYN (R51). -/
def packXyn (op x y n : Nibble) : Word := (op ++ x : BitVec 8) ++ (y ++ n : BitVec 8)

/-- The encoder, from the patterns of R55. -/
def encode : Instr → Word
  | .cls => 0x00E0#16
  | .ret => 0x00EE#16
  | .sys nnn => packNnn 0x0#4 nnn
  | .jp nnn => packNnn 0x1#4 nnn
  | .call nnn => packNnn 0x2#4 nnn
  | .seImm x kk => packXkk 0x3#4 x kk
  | .sneImm x kk => packXkk 0x4#4 x kk
  | .seReg x y => packXyn 0x5#4 x y 0x0#4
  | .ldImm x kk => packXkk 0x6#4 x kk
  | .addImm x kk => packXkk 0x7#4 x kk
  | .ldReg x y => packXyn 0x8#4 x y 0x0#4
  | .orReg x y => packXyn 0x8#4 x y 0x1#4
  | .andReg x y => packXyn 0x8#4 x y 0x2#4
  | .xorReg x y => packXyn 0x8#4 x y 0x3#4
  | .addReg x y => packXyn 0x8#4 x y 0x4#4
  | .sub x y => packXyn 0x8#4 x y 0x5#4
  | .shr x y => packXyn 0x8#4 x y 0x6#4
  | .subn x y => packXyn 0x8#4 x y 0x7#4
  | .shl x y => packXyn 0x8#4 x y 0xE#4
  | .sneReg x y => packXyn 0x9#4 x y 0x0#4
  | .ldI nnn => packNnn 0xA#4 nnn
  | .jpV0 nnn => packNnn 0xB#4 nnn
  | .rnd x kk => packXkk 0xC#4 x kk
  | .drw x y n => packXyn 0xD#4 x y n
  | .skp x => packXkk 0xE#4 x 0x9E#8
  | .sknp x => packXkk 0xE#4 x 0xA1#8
  | .ldVxDt x => packXkk 0xF#4 x 0x07#8
  | .ldVxK x => packXkk 0xF#4 x 0x0A#8
  | .ldDtVx x => packXkk 0xF#4 x 0x15#8
  | .ldStVx x => packXkk 0xF#4 x 0x18#8
  | .addI x => packXkk 0xF#4 x 0x1E#8
  | .ldF x => packXkk 0xF#4 x 0x29#8
  | .ldB x => packXkk 0xF#4 x 0x33#8
  | .stRegs x => packXkk 0xF#4 x 0x55#8
  | .ldRegs x => packXkk 0xF#4 x 0x65#8

/-- The instruction's bits as spec/opcode_table.json numbers them, laid out as the hardware stores them: one word, high
byte first (R32, R50). Bits from `nbits` up are zero. -/
def tableBytes (nbits w : Nat) : List Byte := bytesOfWord (BitVec.ofNat 16 (w % 2 ^ nbits))

/-- What the decoder reads from an instruction whose bits are `w`. -/
def decodeTableWord (nbits w : Nat) : Option Instr :=
  match decode (tableBytes nbits w) with
  | .instr i _ => some i
  | .unknown _ => none
  | .tooFewBytes => none

end Sys2Proof
end

