-- ==== Sys2Proof/Config.lean ====
section
/-! DEFINITION. The operations of the environment (40_operations R70), what is fixed for this hardware (00_scope R4), and
the free values the environment supplies when no pending operation in the state says what they are (log 2). -/

namespace Sys2Proof.Machine

/-- The inputs of one `step` (R20): the key snapshot, bit `k` = `keys[k]`, 1 = pressed; `key_event`; `rnd`. -/
structure Inputs where
  keys : BitVec 16
  keyEvent : Bool
  rnd : Byte
deriving DecidableEq, Repr, Inhabited

/-- The operations the environment can apply to the core (R70). -/
inductive EnvOp where
  /-- `step(keys, key_event, rnd)` (R74) -/
  | step (inp : Inputs)
  /-- `tick_timers()` (R73) -/
  | tickTimers
  /-- `load(bytes)` (R72) -/
  | load (image : List Byte)
  /-- `reset` (R71) -/
  | reset
deriving DecidableEq, Repr, Inhabited

/-- What the environment applies when nothing is pending (R80, log 1). -/
inductive Schedule where
  /-- `step` operations only, each with free inputs -/
  | steps
  /-- any operation at all, a free one each time -/
  | free
deriving DecidableEq, Repr

end Sys2Proof.Machine

namespace Sys2Proof

/-- MEM_SIZE: 4096 bytes, addresses 0x000 to 0xFFF (R4, R30). -/
abbrev Config.memSize : Nat := 4096

/-- FONT_SIZE: 80 bytes at FONT_BASE 0x000 (R4, R21). -/
abbrev Config.fontSize : Nat := 80

/-- LOAD_BASE: where `load` places the image (R4, R72). -/
abbrev Config.loadBase : Nat := 0x200

/-- MAX_IMAGE: 3584 bytes, 4096 - 0x200 (R4, R72). -/
abbrev Config.maxImage : Nat := 3584

/-- RESET_PC (R4, R13). -/
abbrev Config.resetPc : Word := 0x0200#16

/-- SPRITE_EDGE, the configuration point of D22: it has the one value `wrap`; `clip` has no defined meaning. -/
inductive Config.SpriteEdge where
  | wrap
deriving DecidableEq, Repr

/-- This hardware is the `wrap` configuration (R4, R130). -/
def Config.spriteEdge : Config.SpriteEdge := .wrap

/-- PRESUMED (log 4): the font table printed in R21, marked there as general knowledge (G1). It is only the value of
the parameter FONT at `State.reset`; FONT itself is a field of State, so a statement about every state holds for
every font. -/
def Config.conventionalFont : Vector Byte 80 := #v[
  0xF0, 0x90, 0x90, 0x90, 0xF0,  0x20, 0x60, 0x20, 0x20, 0x70,
  0xF0, 0x10, 0xF0, 0x80, 0xF0,  0xF0, 0x10, 0xF0, 0x10, 0xF0,
  0x90, 0x90, 0xF0, 0x10, 0x10,  0xF0, 0x80, 0xF0, 0x10, 0xF0,
  0xF0, 0x80, 0xF0, 0x90, 0xF0,  0xF0, 0x10, 0x20, 0x40, 0x40,
  0xF0, 0x90, 0xF0, 0x90, 0xF0,  0xF0, 0x90, 0xF0, 0x10, 0xF0,
  0xF0, 0x90, 0xF0, 0x90, 0x90,  0xE0, 0x90, 0xE0, 0x90, 0xE0,
  0xF0, 0x80, 0x80, 0x80, 0xF0,  0xE0, 0x90, 0x90, 0x90, 0xE0,
  0xF0, 0x80, 0xF0, 0x80, 0xF0,  0xF0, 0x80, 0xF0, 0x80, 0x80]

/-- DESIGN CHOICE (log 2): the key snapshot of the `n`-th `step` whose inputs the state does not give. No value. -/
opaque Config.freeKeys : Nat → BitVec 16

/-- DESIGN CHOICE (log 2): `key_event` of that `step`. No value. -/
opaque Config.freeKeyEvent : Nat → Bool

/-- DESIGN CHOICE (log 2): `rnd` of that `step`, the free draw of D11 and U8. No value. -/
opaque Config.freeRnd : Nat → Byte

/-- DESIGN CHOICE (log 2): the `n`-th operation of a free schedule, its inputs or image included (R80, D2). No value: the
sequence of its values may be any infinite sequence of operations. -/
opaque Config.freeOp : Nat → Machine.EnvOp

end Sys2Proof
end

