-- ==== Sys2Proof/Machine/State.lean ====
section
/-! DEFINITION. The machine's state as plain data: the eleven items of 10_state R10, and three fields of the model's
own (FONT as data, the environment's pending operations, what follows them, a counter for free values). State.reset is 10_state R23. -/

namespace Sys2Proof.Machine

/-- The cells of memory that differ from their reset content, by rising address (log 15). -/
abbrev Memory := List Host.Cell

/-- The display surface: 32 rows of 64 one-bit cells, `fb[row][col]` (R17). -/
abbrev Frame := Vector (Vector Bool 64) 32

/-- Everything the spec gives the machine (R10), then the model's own fields. -/
structure State where
  /-- `mem` (R19): the cells that differ from their reset content -/
  mem : Memory
  /-- `V[0]` to `V[15]` (R11); `V[15]` is VF (R12) -/
  v : Vector Byte 16
  /-- `pc` (R13) -/
  pc : Word
  /-- `I` (R14) -/
  index : Word
  /-- `stack[0]` to `stack[15]` (R15) -/
  stack : Vector Word 16
  /-- `sp`, the depth, legal values 0 to 16 (R15) -/
  sp : BitVec 5
  /-- `dt`, the delay timer (R16) -/
  dt : Byte
  /-- `st`, the sound timer (R16) -/
  st : Byte
  /-- `fb`, the display surface (R17) -/
  fb : Frame
  /-- `waiting`: false is Running, true is WaitingForKey (R18) -/
  waiting : Bool
  /-- `wait_dest` (R18) -/
  waitDest : Nibble
  /-- the model's own: the parameter FONT (R4, R21, D14); nothing changes it (log 4) -/
  font : Vector Byte 80
  /-- the model's own: the operations the environment has still to apply, oldest first (R80, D2; log 1) -/
  agenda : List EnvOp
  /-- the model's own: what the environment applies once nothing is pending (R80, D2; log 1) -/
  schedule : Schedule
  /-- the model's own: how many operations have been free values or had free inputs (log 2) -/
  draws : Nat
deriving DecidableEq, Repr

/-- The errors of 60_exceptions R161, and one fault of the model's own. -/
inductive Fault where
  /-- `step`, raised by the decoder on an illegal word, which it carries (R163). The run stops where the hardware
  returns an error with its state unchanged: safe (log 5). -/
  | unknownOpcode (w : Word)
  /-- `step`, raised by `2nnn` when `sp` = 16 (R165); safe (log 5) -/
  | stackOverflow
  /-- `step`, raised by `00EE` when `sp` = 0 (R166); safe (log 5) -/
  | stackUnderflow
  /-- `step`, raised by the fetch, `Dxyn`, `Fx33`, `Fx55`, `Fx65` (R164); safe (log 5) -/
  | addressOutOfRange
  /-- `load`, raised when the image has more than 3584 bytes (R167); safe (log 5) -/
  | tooLarge
  /-- the model's own, raised by `2nnn` and `00EE` when `sp` is 17 to 31, values R15 calls unreachable; safe (log 6) -/
  | stackPointerOutOfRange
deriving DecidableEq, Repr

/-- Reasons to give an instruction no meaning. No instruction of this model is refused. -/
inductive Refusal where
  /-- raised by an arm of exec whose instruction has no meaning yet; safe. No arm raises it. -/
  | notModelled (mnemonic : String)
deriving DecidableEq, Repr

/-- The state after reset (R23, R71, R180). FONT is the table of R21 (PRESUMED, log 4); `agenda`, `schedule` and
`draws` are the model's own (DESIGN CHOICE, log 3): from here the environment may apply any sequence (R80). -/
def State.reset : State where
  mem := []
  v := Vector.replicate 16 0x00#8
  pc := Config.resetPc
  index := 0x0000#16
  stack := Vector.replicate 16 0x0000#16
  sp := 0#5
  dt := 0x00#8
  st := 0x00#8
  fb := Vector.replicate 32 (Vector.replicate 64 false)
  waiting := false
  waitDest := 0x0#4
  font := Config.conventionalFont
  agenda := []
  schedule := .free
  draws := 0

end Sys2Proof.Machine
end

