-- ==== Sys2Proof/Machine/Ops.lean ====
section
/-! DEFINITION. The named operations over the state: memory (20_memory), general registers, pc, the call stack, the
display (44_display R130), and the environment's operations that run no instruction (40_operations R71 to R73, R77,
R79). Bounds are checked in `readBytes` and `writeBytes` and nowhere else. -/

namespace Sys2Proof.Machine

/-- What an operation answers. -/
abbrev Result := Host.Outcome State Fault Refusal

/-- `raise E` (R7, R160, R162): the operation ends with error `f` and writes nothing. There is no trap entry, no saved
state and no handler (R170): raising is the whole of it. -/
def raise (f : Fault) : Result := .fault f

/-- `f` applied to a next state; an error or a refusal passes through. -/
def mapNext (f : State → State) : Result → Result
  | .next s => .next (f s)
  | .fault r => .fault r
  | .refused r => .refused r

/-! Memory -/

/-- What an address with no listed cell reads as: its reset content (R21, R23, R31). -/
def Memory.unlisted (font : Vector Byte 80) (a : Nat) : Byte :=
  if h : a < 80 then font[a] else 0x00#8

/-- The listed byte at `a`, if there is one. -/
def Memory.find (a : Nat) : Memory → Option Byte
  | [] => none
  | (k, b) :: m => if k = a then some b else Memory.find a m

/-- `MemRead(a, 1)` (R33); its callers have checked `a <= 0xFFF` (log 26). -/
def Memory.read (font : Vector Byte 80) (m : Memory) (a : Nat) : Byte :=
  (Memory.find a m).getD (Memory.unlisted font a)

/-- List the byte `b` at `a`, keeping the cells by rising address. -/
def Memory.put (a : Nat) (b : Byte) : Memory → Memory
  | [] => [(a, b)]
  | (k, c) :: m =>
    if a < k then (a, b) :: (k, c) :: m
    else if a = k then (a, b) :: m
    else (k, c) :: Memory.put a b m

/-- Remove the cell at `a`. -/
def Memory.drop (a : Nat) : Memory → Memory
  | [] => []
  | (k, c) :: m => if k = a then m else (k, c) :: Memory.drop a m

/-- `MemWrite(a, 1, b)` (R33) in canonical form; its callers have checked `a <= 0xFFF` (log 26). -/
def Memory.write (font : Vector Byte 80) (m : Memory) (a : Nat) (b : Byte) : Memory :=
  if b = Memory.unlisted font a then Memory.drop a m else Memory.put a b m

/-- The bytes at `a`, `a + 1`, ..., `a + n - 1`, in this order. -/
def Memory.readFrom (font : Vector Byte 80) (m : Memory) (a : Nat) : Nat → List Byte
  | 0 => []
  | n + 1 => Memory.read font m a :: Memory.readFrom font m (a + 1) n

/-- The bytes written at `a`, `a + 1`, ..., in this order. -/
def Memory.writeFrom (font : Vector Byte 80) (m : Memory) (a : Nat) : List Byte → Memory
  | [] => m
  | b :: bs => Memory.writeFrom font (Memory.write font m a b) (a + 1) bs

/-- The canonical form: rising addresses below 4096, no cell equal to what its address reads as unlisted. -/
abbrev Memory.wf (font : Vector Byte 80) (m : Memory) : Prop :=
  m.Pairwise (fun c d => c.1 < d.1) ∧ ∀ c ∈ m, c.1 < Config.memSize ∧ c.2 ≠ Memory.unlisted font c.1

/-- The `len` addresses from `base` on all exist, computed with no wrap (R33, R36, R120); an empty range touches none
(D19). -/
abbrev InRange (base len : Nat) : Prop := len = 0 ∨ base + len ≤ Config.memSize

/-- The byte at `a`. -/
def State.readByte (s : State) (a : Nat) : Byte := Memory.read s.font s.mem a

/-- Read a block; none if an address of it does not exist (R36). -/
def State.readBytes (s : State) (base len : Nat) : Option (List Byte) :=
  if InRange base len then some (Memory.readFrom s.font s.mem base len) else none

/-! General registers -/

/-- `V[x]` (R7, R11). -/
def State.reg (s : State) (x : Nibble) : Byte := s.v[x.toNat]'(x.isLt)

/-- `V[x] <- b` (R7, R11). -/
def State.setReg (s : State) (x : Nibble) (b : Byte) : State := { s with v := s.v.set x.toNat b x.isLt }

/-- `V[k] <- b0`, `V[k+1] <- b1`, ... for the bytes of the list (R126). -/
def regsFrom (v : Vector Byte 16) (k : Nat) : List Byte → Vector Byte 16
  | [] => v
  | b :: bs => regsFrom (v.setIfInBounds k b) (k + 1) bs

/-! The other items of R10, each written by its named update -/

/-- Memory replaced by `m`. -/
def State.setMem (s : State) (m : Memory) : State := { s with mem := m }

/-- All sixteen registers replaced by `v`. -/
def State.setV (s : State) (v : Vector Byte 16) : State := { s with v := v }

/-- `I <- w` (R14). -/
def State.setIndex (s : State) (w : Word) : State := { s with index := w }

/-- `dt <- b` (R16). -/
def State.setDt (s : State) (b : Byte) : State := { s with dt := b }

/-- `st <- b` (R16). -/
def State.setSt (s : State) (b : Byte) : State := { s with st := b }

/-- The display replaced by `f` (R17). -/
def State.setFb (s : State) (f : Frame) : State := { s with fb := f }

/-- `waiting <- 1; wait_dest <- x` (R18, R143). -/
def State.beginWait (s : State) (x : Nibble) : State := { s with waiting := true, waitDest := x }

/-- `waiting <- 0` (R18, R77). -/
def State.endWait (s : State) : State := { s with waiting := false }

/-- Write a block; none, and nothing written, if an address of it does not exist (R36, D4). -/
def State.writeBytes (s : State) (base : Nat) (bs : List Byte) : Option State :=
  if InRange base bs.length then some (s.setMem (Memory.writeFrom s.font s.mem base bs)) else none

/-! Program counter -/

/-- `pc <- pc + 2`, mod 65536 (R13, R76). -/
def State.advance (s : State) : State := { s with pc := s.pc + 2#16 }

/-- A skip: `pc + 4` if the condition holds, else `pc + 2` (R13). -/
def State.skipIf (s : State) (c : Bool) : State := { s with pc := if c then s.pc + 4#16 else s.pc + 2#16 }

/-- `pc <- target`, with no check of the target (R90). -/
def State.jump (s : State) (target : Word) : State := { s with pc := target }

/-! Call stack -/

/-- Push (R15): `stack[sp] <- w; sp <- sp + 1`; none unless `sp` <= 15. -/
def State.push (s : State) (w : Word) : Option State :=
  if h : s.sp.toNat < 16 then some { s with stack := s.stack.set s.sp.toNat w h, sp := s.sp + 1#5 } else none

/-- Pop (R15): `sp <- sp - 1`, the result `stack[sp]`; the slot keeps its value. None unless 1 <= `sp` <= 16. -/
def State.pop (s : State) : Option (Word × State) :=
  if h : 1 ≤ s.sp.toNat ∧ s.sp.toNat ≤ 16 then
    some (s.stack[s.sp.toNat - 1]'(by omega), { s with sp := s.sp - 1#5 })
  else none

/-! Display -/

/-- `fb[row][col]` (R17). -/
def Frame.cell (f : Frame) (row : Fin 32) (col : Fin 64) : Bool := f[row][col]

/-- `fb[row][col] <- fb[row][col] XOR 1`. -/
def Frame.flip (f : Frame) (row : Fin 32) (col : Fin 64) : Frame :=
  f.set row.1 (f[row].set col.1 (!f[row][col]) col.2) row.2

/-- Every cell 0 (R131). -/
def Frame.clear : Frame := Vector.replicate 32 (Vector.replicate 64 false)

/-- The display row of sprite row `r` of a sprite drawn at row `py`: mod 32 under `wrap` (R130). -/
def pixelRow (edge : Config.SpriteEdge) (py r : Nat) : Fin 32 :=
  match edge with
  | .wrap => Fin.ofNat 32 (py + r)

/-- The display column of sprite column `c` of a sprite drawn at column `px`: mod 64 under `wrap` (R130). -/
def pixelCol (edge : Config.SpriteEdge) (px c : Nat) : Fin 64 :=
  match edge with
  | .wrap => Fin.ofNat 64 (px + c)

/-- Sprite column `c` of a row byte is its bit `7 - c`: the most significant bit is leftmost (R130, D9, log 12). -/
def spriteBit (b : Byte) (c : Nat) : Bool := b.getLsbD (7 - c)

/-- One pixel of R132's inner loop: the display and the collision so far. -/
def drawPixel (px py r : Nat) (b : Byte) (acc : Frame × Bool) (c : Nat) : Frame × Bool :=
  if spriteBit b c then
    let row := pixelRow Config.spriteEdge py r
    let col := pixelCol Config.spriteEdge px c
    (Frame.flip acc.1 row col, acc.2 || Frame.cell acc.1 row col)
  else acc

/-- One sprite row: columns 0 to 7 (R132). -/
def drawRow (px py r : Nat) (b : Byte) (acc : Frame × Bool) : Frame × Bool :=
  (List.range 8).foldl (drawPixel px py r b) acc

/-- Sprite rows `r`, `r + 1`, ... (R132). -/
def drawRows (px py r : Nat) : List Byte → Frame × Bool → Frame × Bool
  | [], acc => acc
  | b :: bs, acc => drawRows px py (r + 1) bs (drawRow px py r b acc)

/-- `display()` (R79): the current frame, read only. -/
def State.display (s : State) : Frame := s.fb

/-! The environment -/

/-- Inputs that nothing in the state determines (log 2). -/
def State.freeInputs (s : State) : Inputs :=
  ⟨Config.freeKeys s.draws, Config.freeKeyEvent s.draws, Config.freeRnd s.draws⟩

/-- The operation the environment applies when nothing is pending (R80, log 1). -/
def State.unplannedOp (s : State) : EnvOp :=
  match s.schedule with
  | .steps => .step s.freeInputs
  | .free => Config.freeOp s.draws

/-- The operation the environment applies next: the oldest pending one, else as the schedule says (R80, log 1). -/
def State.nextOp (s : State) : EnvOp :=
  match s.agenda with
  | op :: _ => op
  | [] => s.unplannedOp

/-- The inputs of this `step` (R20): those the operation carries, else free. -/
def State.inputs (s : State) : Inputs :=
  match s.nextOp with
  | .step inp => inp
  | .tickTimers | .load _ | .reset => s.freeInputs

/-- The operation has been applied: it leaves the agenda, or the free value is used up (log 1, 2). The core's own
state is untouched. -/
def State.consume (s : State) : State :=
  match s.agenda with
  | _ :: rest => { s with agenda := rest }
  | [] => { s with draws := s.draws + 1 }

/-- The state the environment goes on from after an error: the core's state is as it was (R162, U14, log 5). -/
def State.resume (s : State) : State := s.consume

/-- `reset` (R71): every item of the core's state gets its value of R23, from the parameter FONT. -/
def State.resetCore (s : State) : State :=
  { State.reset with font := s.font, agenda := s.agenda, schedule := s.schedule, draws := s.draws }

/-- One timer's decrement, saturating at 0 (R73). -/
def countDown (t : Byte) : Byte := if t = 0#8 then 0#8 else t - 1#8

/-- `tick_timers` (R73), the same in both states of the core (D26). -/
def State.tickTimers (s : State) : State := (s.setDt (countDown s.dt)).setSt (countDown s.st)

/-- `load` (R72): the image at 0x200, or TooLarge with nothing written (R167). -/
def State.loadImage (s : State) (image : List Byte) : Result :=
  if Config.maxImage < image.length then raise .tooLarge
  else
    match s.writeBytes Config.loadBase image with
    | some t => .next t
    | none => raise .tooLarge

/-- The smallest index of a pressed key (R77). -/
def lowestKey (keys : BitVec 16) : Option Nat := (List.range 16).find? (fun k => keys.getLsbD k)

/-- Resolution of a wait (R77): it completes on a key event with some key down, else nothing changes. -/
def State.resolveWait (s : State) : State :=
  if s.inputs.keyEvent then
    match lowestKey s.inputs.keys with
    | some k => (s.setReg s.waitDest (BitVec.ofNat 8 k)).endWait.advance
    | none => s
  else s

/-- Fetch (R35, R75): the big-endian word at `pc`, or none when `pc > 0x0FFE`. -/
def State.fetch (s : State) : Option Word :=
  match s.readBytes s.pc.toNat 2 with
  | some [hi, lo] => some (wordOfBytes hi lo)
  | _ => none

end Sys2Proof.Machine
end

