-- ==== Sys2Proof/Machine/Flags.lean ====
section
/-! DEFINITION. The flag computations of 10_state R12. VF is general register 15; there is no other flag. -/

namespace Sys2Proof.Machine

/-- VF is `V[15]` (R12). -/
abbrev vf : Nibble := 15#4

/-- A flag is 0x00 or 0x01 (R12). -/
def flagByte (c : Bool) : Byte := if c then 0x01#8 else 0x00#8

/-- Carry of `a + b`: 1 iff the exact sum is above 255 (R107). -/
def carryFlag (a b : Byte) : Byte := flagByte (decide (255 < a.toNat + b.toNat))

/-- No borrow of `a - b`: 1 iff `a >= b`, equality included (R108, R110, U4). -/
def noBorrowFlag (a b : Byte) : Byte := flagByte (decide (b.toNat ≤ a.toNat))

/-- The bit shifted out by a right shift (R109). -/
def lowBitFlag (a : Byte) : Byte := flagByte (a.getLsbD 0)

/-- The bit shifted out by a left shift (R111). -/
def highBitFlag (a : Byte) : Byte := flagByte (a.getLsbD 7)

/-- Collision of a draw (R132). -/
def collisionFlag (c : Bool) : Byte := flagByte c

/-- VF first, then `V[x]`: with `x` = 15 the result remains and the flag is lost (R100, D7, log 10). -/
def State.setFlagged (s : State) (flag : Byte) (x : Nibble) (result : Byte) : State :=
  (s.setReg vf flag).setReg x result

end Sys2Proof.Machine
end

