-- ==== Sys2Proof/Machine/Operands.lean ====
section
/-! DEFINITION. The operand forms of 30_encoding R52 and 43_index_memory R120: register (`State.reg`), immediate
(zero-extended `nnn`, `kk` as it stands), the `I`-based block, and the values the instructions compute from them. -/

namespace Sys2Proof.Machine

/-- `zext_16(nnn)` (R52). -/
def addr16 (nnn : Addr12) : Word := nnn.setWidth 16

/-- `zext_16(V[x])`. -/
def byte16 (b : Byte) : Word := b.setWidth 16

/-- The block of `len` bytes read through `I` (R36, R120). -/
def State.blockAtI (s : State) (len : Nat) : Option (List Byte) := s.readBytes s.index.toNat len

/-- The block of bytes stored through `I` (R36, R120); `I` itself is not changed (D13). -/
def State.storeAtI (s : State) (bs : List Byte) : Option State := s.writeBytes s.index.toNat bs

/-- V0 to Vx inclusive (R125). -/
def State.regBlock (s : State) (x : Nibble) : List Byte := s.v.toList.take (x.toNat + 1)

/-- The decimal digits of a byte: hundreds, tens, units, one a byte (R124). -/
def bcdDigits (b : Byte) : List Byte :=
  [BitVec.ofNat 8 (b.toNat / 100), BitVec.ofNat 8 (b.toNat / 10 % 10), BitVec.ofNat 8 (b.toNat % 10)]

/-- The address of the glyph of a digit, the whole byte times 5 (R123, D23). -/
def fontAddr (b : Byte) : Word := BitVec.ofNat 16 (b.toNat * 5)

/-- The starting column of a sprite, `V[x] mod 64` (R132). -/
def State.spriteCol (s : State) (x : Nibble) : Nat := (s.reg x).toNat % 64

/-- The starting row of a sprite, `V[y] mod 32` (R132). -/
def State.spriteRow (s : State) (y : Nibble) : Nat := (s.reg y).toNat % 32

/-- Is the key selected by the low four bits of `V[x]` down in this step's snapshot (R140, R146, D10, log 13). -/
def State.keyDown (s : State) (x : Nibble) : Bool := s.inputs.keys.getLsbD ((s.reg x).toNat % 16)

end Sys2Proof.Machine
end

