-- ==== Sys2Proof/Machine/Alu.lean ====
section
/-! DEFINITION. Register and ALU instructions (42_alu R100 to R112). Every operand is read from the state before the
instruction (R100); none can fail. -/

namespace Sys2Proof.Machine

/-- `6xkk` (R101) -/
def execLdImm (x : Nibble) (kk : Byte) (s : State) : Result := .next (s.setReg x kk).advance

/-- `7xkk` (R102): no flag -/
def execAddImm (x : Nibble) (kk : Byte) (s : State) : Result := .next (s.setReg x (s.reg x + kk)).advance

/-- `8xy0` (R103) -/
def execLdReg (x y : Nibble) (s : State) : Result := .next (s.setReg x (s.reg y)).advance

/-- `8xy1` (R104): no flag -/
def execOrReg (x y : Nibble) (s : State) : Result := .next (s.setReg x (s.reg x ||| s.reg y)).advance

/-- `8xy2` (R105): no flag -/
def execAndReg (x y : Nibble) (s : State) : Result := .next (s.setReg x (s.reg x &&& s.reg y)).advance

/-- `8xy3` (R106): no flag -/
def execXorReg (x y : Nibble) (s : State) : Result := .next (s.setReg x (s.reg x ^^^ s.reg y)).advance

/-- `8xy4` (R107) -/
def execAddReg (x y : Nibble) (s : State) : Result :=
  .next (s.setFlagged (carryFlag (s.reg x) (s.reg y)) x (s.reg x + s.reg y)).advance

/-- `8xy5` (R108) -/
def execSub (x y : Nibble) (s : State) : Result :=
  .next (s.setFlagged (noBorrowFlag (s.reg x) (s.reg y)) x (s.reg x - s.reg y)).advance

/-- `8xy6` (R109): shifts `V[x]` in place; `y` is ignored (R57) -/
def execShr (x _y : Nibble) (s : State) : Result :=
  .next (s.setFlagged (lowBitFlag (s.reg x)) x (s.reg x >>> 1)).advance

/-- `8xy7` (R110) -/
def execSubn (x y : Nibble) (s : State) : Result :=
  .next (s.setFlagged (noBorrowFlag (s.reg y) (s.reg x)) x (s.reg y - s.reg x)).advance

/-- `8xyE` (R111): shifts `V[x]` in place; `y` is ignored (R57) -/
def execShl (x _y : Nibble) (s : State) : Result :=
  .next (s.setFlagged (highBitFlag (s.reg x)) x (s.reg x <<< 1)).advance

/-- `Cxkk` (R112): the step input `rnd` ANDed with `kk` -/
def execRnd (x : Nibble) (kk : Byte) (s : State) : Result := .next (s.setReg x (s.inputs.rnd &&& kk)).advance

end Sys2Proof.Machine
end

