-- ==== Sys2Proof/Machine/Display.lean ====
section
/-! DEFINITION. Display instructions (44_display R130 to R132). -/

namespace Sys2Proof.Machine

/-- `00E0` (R131): VF is not written. -/
def execCls (s : State) : Result := .next (s.setFb Frame.clear).advance

/-- `Dxyn` (R132): the coordinates are read before VF is written; VF is one value for the whole sprite. -/
def execDrw (x y n : Nibble) (s : State) : Result :=
  match s.blockAtI n.toNat with
  | some rows =>
    let drawn := drawRows (s.spriteCol x) (s.spriteRow y) 0 rows (s.fb, false)
    .next ((s.setFb drawn.1).setReg vf (collisionFlag drawn.2)).advance
  | none => raise .addressOutOfRange

end Sys2Proof.Machine
end

