-- ==== Sys2Proof/Machine/Flow.lean ====
section
/-! DEFINITION. Control transfer (41_flow R90 to R99). `pc` is the address of the instruction itself (R13). -/

namespace Sys2Proof.Machine

/-- `00EE` (R91): the slot popped holds the call's own address, so 2 is added. -/
def execRet (s : State) : Result :=
  if s.sp = 0#5 then raise .stackUnderflow
  else
    match s.pop with
    | some (w, t) => .next (t.jump (w + 2#16))
    | none => raise .stackPointerOutOfRange

/-- `0nnn` (R92): a no-op; `nnn` is ignored. -/
def execSys (_nnn : Addr12) (s : State) : Result := .next s.advance

/-- `1nnn` (R93) -/
def execJp (nnn : Addr12) (s : State) : Result := .next (s.jump (addr16 nnn))

/-- `2nnn` (R94): the call's own address is pushed. -/
def execCall (nnn : Addr12) (s : State) : Result :=
  if s.sp = 16#5 then raise .stackOverflow
  else
    match s.push s.pc with
    | some t => .next (t.jump (addr16 nnn))
    | none => raise .stackPointerOutOfRange

/-- `3xkk` (R95) -/
def execSeImm (x : Nibble) (kk : Byte) (s : State) : Result := .next (s.skipIf (s.reg x == kk))

/-- `4xkk` (R96) -/
def execSneImm (x : Nibble) (kk : Byte) (s : State) : Result := .next (s.skipIf (s.reg x != kk))

/-- `5xy0` (R97) -/
def execSeReg (x y : Nibble) (s : State) : Result := .next (s.skipIf (s.reg x == s.reg y))

/-- `9xy0` (R98) -/
def execSneReg (x y : Nibble) (s : State) : Result := .next (s.skipIf (s.reg x != s.reg y))

/-- `Bnnn` (R99): the register is always V0; the sum is not reduced to 12 bits (D20, log 19). -/
def execJpV0 (nnn : Addr12) (s : State) : Result := .next (s.jump (addr16 nnn + byte16 (s.reg 0#4)))

end Sys2Proof.Machine
end

