-- ==== Sys2Proof/Machine/Index.lean ====
section
/-! DEFINITION. Index register and memory transfer (43_index_memory R120 to R126). A block is checked whole before
anything is written, and `I` is left as it was (R120, D13). -/

namespace Sys2Proof.Machine

/-- `Annn` (R121) -/
def execLdI (nnn : Addr12) (s : State) : Result := .next (s.setIndex (addr16 nnn)).advance

/-- `Fx1E` (R122): mod 65536, no flag (D12, log 14) -/
def execAddI (x : Nibble) (s : State) : Result := .next (s.setIndex (s.index + byte16 (s.reg x))).advance

/-- `Fx29` (R123) -/
def execLdF (x : Nibble) (s : State) : Result := .next (s.setIndex (fontAddr (s.reg x))).advance

/-- `Fx33` (R124) -/
def execLdB (x : Nibble) (s : State) : Result :=
  match s.storeAtI (bcdDigits (s.reg x)) with
  | some t => .next t.advance
  | none => raise .addressOutOfRange

/-- `Fx55` (R125) -/
def execStRegs (x : Nibble) (s : State) : Result :=
  match s.storeAtI (s.regBlock x) with
  | some t => .next t.advance
  | none => raise .addressOutOfRange

/-- `Fx65` (R126) -/
def execLdRegs (x : Nibble) (s : State) : Result :=
  match s.blockAtI (x.toNat + 1) with
  | some bs => .next (s.setV (regsFrom s.v 0 bs)).advance
  | none => raise .addressOutOfRange

end Sys2Proof.Machine
end

