-- ==== Sys2Proof/Machine/Keys.lean ====
section
/-! DEFINITION. Key and timer instructions (45_keys_timers R140 to R146). None can fail. -/

namespace Sys2Proof.Machine

/-- `Ex9E` (R140) -/
def execSkp (x : Nibble) (s : State) : Result := .next (s.skipIf (s.keyDown x))

/-- `ExA1` (R141) -/
def execSknp (x : Nibble) (s : State) : Result := .next (s.skipIf (!s.keyDown x))

/-- `Fx07` (R142) -/
def execLdVxDt (x : Nibble) (s : State) : Result := .next (s.setReg x s.dt).advance

/-- `Fx0A` (R143): only enters the wait; this step's keys are not looked at (D25, log 22). -/
def execLdVxK (x : Nibble) (s : State) : Result := .next (s.beginWait x)

/-- `Fx15` (R144) -/
def execLdDtVx (x : Nibble) (s : State) : Result := .next (s.setDt (s.reg x)).advance

/-- `Fx18` (R145) -/
def execLdStVx (x : Nibble) (s : State) : Result := .next (s.setSt (s.reg x)).advance

end Sys2Proof.Machine
end

