-- ==== Sys2Proof/Machine/Operations.lean ====
section
/-! DEFINITION. One operation of the environment applied to the core (40_operations R70, R74), and the placing of one
instruction where the next step fetches it. -/

namespace Sys2Proof.Machine

/-- A `step` in state Running (R74): fetch, decode, execute, each check before the next (R169). -/
def State.runInstruction (s : State) : Result :=
  match s.fetch with
  | none => raise .addressOutOfRange
  | some w =>
    match decodeWord w with
    | .unknown w => raise (.unknownOpcode w)
    | .instr i => exec i s

/-- `step` (R74): a pending wait is resolved or held, with no fetch; otherwise one instruction runs. -/
def State.stepCore (s : State) : Result :=
  if s.waiting then .next s.resolveWait else s.runInstruction

/-- One operation (R70); of a `step` the inputs are `State.inputs`. -/
def State.apply (s : State) : EnvOp → Result
  | .step _ => s.stepCore
  | .tickTimers => .next s.tickTimers
  | .load image => s.loadImage image
  | .reset => .next s.resetCore

/-- The environment's next operation is applied and done with; any sequence of operations, finite or infinite, can come
(R70, R80). -/
def State.transition (s : State) : Result := mapNext State.consume (s.apply s.nextOp)

/-- Pending operations up to the first `step`. -/
def dropToStep : List EnvOp → List EnvOp
  | [] => []
  | .step inp :: rest => .step inp :: rest
  | .tickTimers :: rest | .load _ :: rest | .reset :: rest => dropToStep rest

/-- With nothing pending, a `step` is to be the next operation. -/
def scheduleFor (s : Schedule) : List EnvOp → Schedule
  | [] => .steps
  | _ :: _ => s

/-- The state whose next transition fetches the given two bytes: they stand at `pc`, the core is Running, and the next
operation is a `step`. A `pc` from which nothing can be fetched (R35) is put back to 0x200 (log 24). -/
def State.place (s : State) (bs : List Byte) : State :=
  let pc := if s.pc.toNat + 2 ≤ Config.memSize then s.pc else Config.resetPc
  { s with
    mem := Memory.writeFrom s.font s.mem pc.toNat bs
    pc := pc
    waiting := false
    agenda := dropToStep s.agenda
    schedule := scheduleFor s.schedule (dropToStep s.agenda) }

end Sys2Proof.Machine
end

