-- ==== Sys2Proof/Machine/Step.lean ====
section
/-! DEFINITION. The machine's step: one operation of the environment (40_operations R70). -/

namespace Sys2Proof.Machine

/-- One operation of the environment applied to the core: the oldest pending one, else the one its schedule gives. -/
def step (s : State) : Host.Outcome State Fault Refusal := s.transition

/-- `s` with the table word `w` of `nbits` bits where the next step fetches it (log 24). -/
def State.withFetchWord (s : State) (nbits w : Nat) : State := s.place (tableBytes nbits w)

end Sys2Proof.Machine
end

