-- ==== Sys2Proof/Safety.lean ====
section
/-! DEFINITION. The terms the claims use: what an instruction may change, the machine's invariants, a safe run, and the
sprite as the spec describes it. -/

namespace Sys2Proof.Safety

open Sys2Proof.Machine

/-- What a meaning may change, apart from `pc`: registers, memory addresses, call-stack slots, and the other items of
R10 by name. What is not listed is unchanged. -/
structure Touched where
  regs : List Nibble := []
  bytes : List Nat := []
  slots : List Nat := []
  index : Bool := false
  sp : Bool := false
  dt : Bool := false
  st : Bool := false
  fb : Bool := false
  wait : Bool := false
deriving DecidableEq, Repr

/-- `t` is `s` but for `pc` and what `T` lists: every other register, every other byte of memory as read one byte at a
time, every other stack slot, every other item of R10, and the model's own fields are as they were. -/
structure KeepsAllBut (T : Touched) (s t : State) : Prop where
  regs : ∀ r : Nibble, r ∉ T.regs → t.reg r = s.reg r
  bytes : ∀ a : Nat, a ∉ T.bytes → t.readByte a = s.readByte a
  slots : ∀ k : Fin 16, k.val ∉ T.slots → t.stack[k] = s.stack[k]
  index : T.index = false → t.index = s.index
  sp : T.sp = false → t.sp = s.sp
  dt : T.dt = false → t.dt = s.dt
  st : T.st = false → t.st = s.st
  fb : T.fb = false → t.fb = s.fb
  waiting : T.wait = false → t.waiting = s.waiting
  waitDest : T.wait = false → t.waitDest = s.waitDest
  font : t.font = s.font
  agenda : t.agenda = s.agenda
  schedule : t.schedule = s.schedule
  draws : t.draws = s.draws

/-- The core's own state (R10) is the same in `s` and `t`; only the environment's fields may differ. -/
def SameCore (s t : State) : Prop :=
  t = { s with agenda := t.agenda, schedule := t.schedule, draws := t.draws }

/-- The canonical form of memory, and the legal depths of R15. -/
abbrev Legal (s : State) : Prop := Memory.wf s.font s.mem ∧ s.sp.toNat ≤ 16

/-- The bounds of R13 and R15: `pc` is at most 0x10FE, at most 0x0FFE during a wait, the depth at most 16, and every
live call-stack entry is the address of an instruction that was fetched. -/
abbrev PcBounded (s : State) : Prop :=
  s.pc.toNat ≤ 0x10FE ∧ (s.waiting = true → s.pc.toNat ≤ 0x0FFE) ∧ s.sp.toNat ≤ 16 ∧
    ∀ k : Fin 16, k.val < s.sp.toNat → s.stack[k].toNat ≤ 0x0FFE

/-- The word at `pc`: the byte at `pc` high, the byte at `pc + 1` low (R32). -/
def wordAtPc (s : State) : Word := s.readByte s.pc.toNat ++ s.readByte (s.pc.toNat + 1)

/-- The next operation is a `step` in state Running with `pc` in memory, and the word at `pc` decodes to `i`. -/
def AboutToRun (s : State) (i : Instr) : Prop :=
  (∃ inp, s.nextOp = .step inp) ∧ s.waiting = false ∧ s.pc.toNat ≤ 0x0FFE ∧ decodeWord (wordAtPc s) = .instr i

/-- A set bit of the `n`-row sprite at `I`, drawn at (`V[x]` mod 64, `V[y]` mod 32), lands on this cell: some sprite row
`r` and column `c`, each coordinate wrapped (R130, R132). -/
def SpriteCovers (s : State) (x y n : Nibble) (row : Fin 32) (col : Fin 64) : Prop :=
  ∃ r c : Nat, r < n.toNat ∧ c < 8 ∧ row.val = ((s.reg y).toNat + r) % 32 ∧ col.val = ((s.reg x).toNat + c) % 64 ∧
    (s.readByte (s.index.toNat + r)).getLsbD (7 - c) = true

/-- A safe run: `k` operations of the environment, from `s`, all succeed and lead to `t`. -/
def RunsTo (k : Nat) (s t : State) : Prop := Sys2Proof.core.run k s = .next t

end Sys2Proof.Safety
end

