-- ==== Sys2Proof/Certificates/Slice0/Obligations.lean ====
section
/-! DEFINITION. The statements for the provers, from the numbered rules of spec/. Each docstring names the rule or the
section it rests on. "The spec's decision" marks what the spec itself decides (92_eei_decisions); "the model's" marks a
choice of this model, with its log entry. -/

open Sys2Proof Sys2Proof.Machine Sys2Proof.Safety

/-! ## Encoding -/

/-- Words written out from the patterns of 30_encoding section 3, and vectors of 95_test_vectors 2.1; a sanity check.
Twelve decode to an instruction; the last three have the verdict Unknown because matching is exact, the spec's decision
D8 (log 11). -/
def Obligations.SampleWordsDecode : Prop :=
  decodeWord 0x00E0#16 = .instr .cls ∧ decodeWord 0x00EE#16 = .instr .ret ∧
  decodeWord 0x0000#16 = .instr (.sys 0x000#12) ∧ decodeWord 0x1228#16 = .instr (.jp 0x228#12) ∧
  decodeWord 0x2300#16 = .instr (.call 0x300#12) ∧ decodeWord 0x6A2F#16 = .instr (.ldImm 0xA#4 0x2F#8) ∧
  decodeWord 0x8127#16 = .instr (.subn 0x1#4 0x2#4) ∧ decodeWord 0x812E#16 = .instr (.shl 0x1#4 0x2#4) ∧
  decodeWord 0xA2F0#16 = .instr (.ldI 0x2F0#12) ∧ decodeWord 0xD125#16 = .instr (.drw 0x1#4 0x2#4 0x5#4) ∧
  decodeWord 0xE19E#16 = .instr (.skp 0x1#4) ∧ decodeWord 0xF155#16 = .instr (.stRegs 0x1#4) ∧
  decodeWord 0x5121#16 = .unknown 0x5121#16 ∧ decodeWord 0x812F#16 = .unknown 0x812F#16 ∧
  decodeWord 0xF1FF#16 = .unknown 0xF1FF#16

/-- Decode and encode agree: every well-formed instruction, every operand at every value, comes back from its word
(30_encoding sections 1 to 3). -/
def Obligations.DecodeOfEncodeIsIdentity : Prop :=
  ∀ i : Instr, i.wf = true → decodeWord (encode i) = .instr i

/-- The other direction: a word that decodes is the word of the instruction it decodes to, and every decoded instruction
is well-formed (30_encoding sections 2 and 3). For `8xy6` and `8xyE` it rests on the model's choice to keep the `y` field
in the syntax (log 25): to the hardware all 16 values of `y` are the same shift (section 4). That a word decodes only if
every fixed digit of a pattern matches is the spec's decision D8 (log 11). -/
def Obligations.EncodeOfDecodeIsIdentity : Prop :=
  ∀ (w : Word) (i : Instr), decodeWord w = .instr i → i.wf = true ∧ encode i = w

/-- The illegal words are exactly those of the table of 30_encoding section 4, and each is rejected with the word
itself; exact matching is the spec's decision D8. -/
def Obligations.IllegalWordsAreRejected : Prop :=
  ∀ w : Word, (∀ v, decodeWord w = .unknown v → v = w) ∧
    (decodeWord w = .unknown w ↔
      ((w.extractLsb' 12 4 = 0x5#4 ∨ w.extractLsb' 12 4 = 0x9#4) ∧ w.extractLsb' 0 4 ≠ 0x0#4) ∨
      (w.extractLsb' 12 4 = 0x8#4 ∧
        w.extractLsb' 0 4 ∈ [0x8#4, 0x9#4, 0xA#4, 0xB#4, 0xC#4, 0xD#4, 0xF#4]) ∨
      (w.extractLsb' 12 4 = 0xE#4 ∧ w.extractLsb' 0 8 ∉ [0x9E#8, 0xA1#8]) ∨
      (w.extractLsb' 12 4 = 0xF#4 ∧
        w.extractLsb' 0 8 ∉ [0x07#8, 0x0A#8, 0x15#8, 0x18#8, 0x1E#8, 0x29#8, 0x33#8, 0x55#8, 0x65#8]))

/-! ## Reset -/

/-- What `State.reset` holds: the values of 10_state section 9, FONT at 0x000 to 0x04F whatever the font is (that the
bytes 0x050 to 0x1FF are 0 is the spec's decision D15, that the stack, `sp` and `wait_dest` are its D16). That the
font is the table of R21, and the values of `agenda`, `schedule` and `draws`, are the model's (log 3, 4) and are not stated. -/
def Obligations.ResetStateValues : Prop :=
  (∀ a : Fin 80, State.reset.readByte a = State.reset.font[a]) ∧
  (∀ a : Nat, 0x050 ≤ a → a ≤ 0xFFF → State.reset.readByte a = 0x00#8) ∧
  (∀ x : Nibble, State.reset.reg x = 0x00#8) ∧ State.reset.pc = 0x0200#16 ∧ State.reset.index = 0x0000#16 ∧
  (∀ k : Fin 16, State.reset.stack[k] = 0x0000#16) ∧ State.reset.sp = 0#5 ∧ State.reset.dt = 0x00#8 ∧
  State.reset.st = 0x00#8 ∧ (∀ row col, Frame.cell State.reset.fb row col = false) ∧
  State.reset.waiting = false ∧ State.reset.waitDest = 0x0#4

/-- The `reset` operation, from any state at all, a pending wait included, gives every item of the core's state its
value of 10_state section 9 and cannot fail (40_operations section 2; the spec's decisions D15 and D16). -/
def Obligations.ResetOperationRestoresEverything : Prop :=
  ∀ s : State, s.nextOp = .reset →
    ∃ u : State, step s = .next u.consume ∧
      (∀ a : Fin 80, u.readByte a = s.font[a]) ∧ (∀ a : Nat, 0x050 ≤ a → a ≤ 0xFFF → u.readByte a = 0x00#8) ∧
      (∀ x : Nibble, u.reg x = 0x00#8) ∧ u.pc = 0x0200#16 ∧ u.index = 0x0000#16 ∧
      (∀ k : Fin 16, u.stack[k] = 0x0000#16) ∧ u.sp = 0#5 ∧ u.dt = 0x00#8 ∧ u.st = 0x00#8 ∧
      (∀ row col, Frame.cell u.fb row col = false) ∧ u.waiting = false ∧ u.waitDest = 0x0#4 ∧
      u.font = s.font ∧ u.agenda = s.agenda ∧ u.schedule = s.schedule ∧ u.draws = s.draws

/-! ## One operation of the environment -/

/-- A step runs the decoded instruction (40_operations section 5): when the next operation is a `step`, the core is
Running and the word at `pc` decodes to `i`, the step is `exec i`, after which the operation leaves the environment's
agenda, or a free value is used up (the model's, log 1 and 2); nothing of the core's own state is touched around `exec`. -/
def Obligations.StepRunsDecodedInstruction : Prop :=
  (∀ (s : State) (i : Instr), AboutToRun s i → i.wf = true → step s = mapNext State.consume (exec i s)) ∧
  (∀ u : State, SameCore u u.consume ∧
    (∀ op rest, u.agenda = op :: rest → u.consume.agenda = rest ∧ u.consume.draws = u.draws) ∧
    u.consume.schedule = u.schedule ∧ (u.agenda = [] → u.consume.agenda = [] ∧ u.consume.draws = u.draws + 1))

/-- `withFetchWord` is right: from every state in canonical form, the very next step runs exactly the instruction of the
word, and where `pc` is in memory nothing but the two bytes at it, the wait and the environment's fields is changed. The placing is
the model's (log 24); the fetch it meets is 20_memory section 2. -/
def Obligations.PlacedWordRunsNext : Prop :=
  ∀ (s : State) (w : Word) (i : Instr), Legal s → decodeWord w = .instr i →
    decodeTableWord 16 w.toNat = some i ∧
    step (s.withFetchWord 16 w.toNat) = mapNext State.consume (exec i (s.withFetchWord 16 w.toNat)) ∧
    (s.pc.toNat ≤ 0xFFE →
      wordAtPc (s.withFetchWord 16 w.toNat) = w ∧
      (∀ a, a ≠ s.pc.toNat → a ≠ s.pc.toNat + 1 → (s.withFetchWord 16 w.toNat).readByte a = s.readByte a) ∧
      s.withFetchWord 16 w.toNat =
        { s with mem := (s.withFetchWord 16 w.toNat).mem, waiting := false,
                 agenda := (s.withFetchWord 16 w.toNat).agenda,
                 schedule := (s.withFetchWord 16 w.toNat).schedule })

/-- A `step` in state Running with `pc` above 0x0FFE ends with AddressOutOfRange, whatever the bytes are (20_memory
section 3; the spec's decision D5). -/
def Obligations.FetchBeyondMemoryFaults : Prop :=
  ∀ (s : State) (inp : Inputs), s.nextOp = .step inp → s.waiting = false → 0x0FFE < s.pc.toNat →
    step s = .fault .addressOutOfRange

/-- UnknownOpcode (R163): the fetched word has the verdict Unknown; the error carries it, and `pc` still points at it. -/
def Obligations.UnknownWordFaults : Prop :=
  ∀ (s : State) (inp : Inputs) (v : Word), s.nextOp = .step inp → s.waiting = false → s.pc.toNat ≤ 0x0FFE →
    decodeWord (wordAtPc s) = .unknown v →
    step s = .fault (.unknownOpcode (wordAtPc s)) ∧ s.resume.pc = s.pc

/-- Resolution of a wait (R77), both branches: a key event with some key down writes the lowest pressed index to
`V[wait_dest]`, clears `waiting`, adds 2 to `pc` and runs nothing else; otherwise the core does not change at all. -/
def Obligations.WaitResolvesOrHolds : Prop :=
  (∀ (s : State) (inp : Inputs) (k : Nat), s.nextOp = .step inp → s.waiting = true → inp.keyEvent = true →
    k < 16 → inp.keys.getLsbD k = true → (∀ j < k, inp.keys.getLsbD j = false) →
    ∃ u : State, step s = .next u.consume ∧ (u.reg s.waitDest).toNat = k ∧ u.waiting = false ∧
      u.waitDest = s.waitDest ∧ u.pc = s.pc + 2#16 ∧
      KeepsAllBut { regs := [s.waitDest], wait := true } s u) ∧
  (∀ (s : State) (inp : Inputs), s.nextOp = .step inp → s.waiting = true →
    (inp.keyEvent = false ∨ inp.keys = 0#16) → step s = .next s.consume)

/-- `tick_timers`: each timer falls by one and stops at 0 (a natural-number subtraction), in both states of the core,
and nothing else changes (40_operations section 4; that a wait does not stop it is the spec's decision D26). -/
def Obligations.TickCountsTimersDown : Prop :=
  ∀ s : State, s.nextOp = .tickTimers →
    ∃ u : State, step s = .next u.consume ∧ u.dt.toNat = s.dt.toNat - 1 ∧ u.st.toNat = s.st.toNat - 1 ∧
      u = { s with dt := u.dt, st := u.st }

/-- `load` of at most 3584 bytes puts the image at 0x200 in order and changes nothing else: not `pc`, not the wait, not
the memory below 0x200 or after the image (40_operations section 3; the spec's decision D17). -/
def Obligations.LoadPlacesImage : Prop :=
  ∀ (s : State) (image : List Byte), Legal s → s.nextOp = .load image → image.length ≤ 3584 →
    ∃ u : State, step s = .next u.consume ∧
      (∀ (k : Nat) (h : k < image.length), u.readByte (0x200 + k) = image[k]) ∧ u.pc = s.pc ∧
      KeepsAllBut { bytes := List.range' 0x200 image.length } s u

/-- TooLarge (R167): an image of more than 3584 bytes is reported and nothing is written. -/
def Obligations.LoadTooLargeFaults : Prop :=
  ∀ (s : State) (image : List Byte), s.nextOp = .load image → 3584 < image.length →
    step s = .fault .tooLarge ∧ SameCore s s.resume

/-- An error of `step` changes nothing of the core and repeats: the environment goes on from the same core, and a `step`
from it, with any inputs whatever, ends with the same error (60_exceptions section 1; the spec's decision D4 and its
inference in R162). -/
def Obligations.ErrorsLeaveCoreAndRepeat : Prop :=
  ∀ (s : State) (inp : Inputs) (f : Fault), s.nextOp = .step inp → step s = .fault f →
    SameCore s s.resume ∧
    ∀ (t : State) (inp' : Inputs), SameCore s t → t.nextOp = .step inp' → step t = .fault f

/-! ## Control transfer -/

/-- `00EE` with 1 to 16 entries on the call stack: `pc` is the newest entry plus 2, the depth falls by one, no slot
changes (41_flow section 2; how `sp` counts is the spec's decision D3). -/
def Obligations.ReturnPopsNewestEntry : Prop :=
  ∀ (s : State) (h : 1 ≤ s.sp.toNat ∧ s.sp.toNat ≤ 16),
    ∃ t : State, exec .ret s = .next t ∧
      t.pc = s.stack[s.sp.toNat - 1]'(Nat.lt_of_lt_of_le (Nat.sub_lt h.1 Nat.one_pos) h.2) + 2#16 ∧
      t.sp.toNat = s.sp.toNat - 1 ∧ KeepsAllBut { sp := true } s t

/-- `00EE` with an empty call stack is StackUnderflow; `sp` of 17 to 31, which no run reaches, is a fault of the model's
own (41_flow section 2, 60_exceptions section 1; log 6). -/
def Obligations.ReturnWithoutEntryFaults : Prop :=
  ∀ s : State, (s.sp = 0#5 → exec .ret s = .fault .stackUnderflow) ∧
    (16 < s.sp.toNat → exec .ret s = .fault .stackPointerOutOfRange)

/-- `0nnn` (R92): a no-op for every `nnn` but those of 00E0 and 00EE. -/
def Obligations.MachineCallIsNoOp : Prop :=
  ∀ (nnn : Addr12) (s : State),
    (nnn ≠ 0x0E0#12 → nnn ≠ 0x0EE#12 → decodeWord (0x0#4 ++ nnn) = .instr (.sys nnn)) ∧
    ∃ t : State, exec (.sys nnn) s = .next t ∧ t.pc = s.pc + 2#16 ∧ KeepsAllBut {} s t

/-- `1nnn` (R93): `pc` becomes `nnn`, zero-extended, with no check. -/
def Obligations.JumpSetsPc : Prop :=
  ∀ (nnn : Addr12) (s : State), decodeWord (0x1#4 ++ nnn) = .instr (.jp nnn) ∧
    ∃ t : State, exec (.jp nnn) s = .next t ∧ t.pc.toNat = nnn.toNat ∧ KeepsAllBut {} s t

/-- `2nnn` with at most 15 entries: the call's own address goes into the slot at the old depth, the depth rises by one,
`pc` becomes `nnn`; no other slot changes (41_flow section 2; the spec's decision D3). -/
def Obligations.CallPushesOwnAddress : Prop :=
  ∀ (nnn : Addr12) (s : State) (h : s.sp.toNat < 16),
    ∃ t : State, exec (.call nnn) s = .next t ∧ t.stack[s.sp.toNat]'h = s.pc ∧ t.sp.toNat = s.sp.toNat + 1 ∧
      t.pc.toNat = nnn.toNat ∧ KeepsAllBut { slots := [s.sp.toNat], sp := true } s t

/-- `2nnn` at full depth is StackOverflow; `sp` of 17 to 31 is a fault of the model's own (41_flow section 2,
60_exceptions section 1; log 6). -/
def Obligations.CallAtFullDepthFaults : Prop :=
  ∀ (nnn : Addr12) (s : State), (s.sp = 16#5 → exec (.call nnn) s = .fault .stackOverflow) ∧
    (16 < s.sp.toNat → exec (.call nnn) s = .fault .stackPointerOutOfRange)

/-- `CALL` then `RET` comes back to the instruction after the call with the depth as it was, every entry below it as it
was, and nothing else changed but the dead slot (41_flow section 2; the spec's decision D3). -/
def Obligations.CallThenReturnRoundTrip : Prop :=
  ∀ (nnn : Addr12) (s : State), s.sp.toNat < 16 →
    ∃ t u : State, exec (.call nnn) s = .next t ∧ exec .ret t = .next u ∧ u.pc = s.pc + 2#16 ∧ u.sp = s.sp ∧
      KeepsAllBut { slots := [s.sp.toNat] } s u

/-- `3xkk` (R95) and `4xkk` (R96): skip if `V[x]` equals, differs from, `kk`. -/
def Obligations.SkipsCompareWithImmediate : Prop :=
  ∀ (x : Nibble) (kk : Byte) (s : State),
    (decodeWord (0x3#4 ++ x ++ kk) = .instr (.seImm x kk) ∧
      ∃ t : State, exec (.seImm x kk) s = .next t ∧
        t.pc = (if s.reg x = kk then s.pc + 4#16 else s.pc + 2#16) ∧ KeepsAllBut {} s t) ∧
    (decodeWord (0x4#4 ++ x ++ kk) = .instr (.sneImm x kk) ∧
      ∃ t : State, exec (.sneImm x kk) s = .next t ∧
        t.pc = (if s.reg x ≠ kk then s.pc + 4#16 else s.pc + 2#16) ∧ KeepsAllBut {} s t)

/-- `5xy0` and `9xy0`: skip if two registers are equal, differ (41_flow section 2). That the same patterns with another low
digit are illegal is the spec's decision D8 (30_encoding section 4, log 11). -/
def Obligations.SkipsCompareRegisters : Prop :=
  ∀ (x y : Nibble) (s : State),
    (decodeWord (0x5#4 ++ x ++ y ++ 0x0#4) = .instr (.seReg x y) ∧
      (∀ n : Nibble, n ≠ 0#4 → decodeWord (0x5#4 ++ x ++ y ++ n) = .unknown (0x5#4 ++ x ++ y ++ n)) ∧
      ∃ t : State, exec (.seReg x y) s = .next t ∧
        t.pc = (if s.reg x = s.reg y then s.pc + 4#16 else s.pc + 2#16) ∧ KeepsAllBut {} s t) ∧
    (decodeWord (0x9#4 ++ x ++ y ++ 0x0#4) = .instr (.sneReg x y) ∧
      (∀ n : Nibble, n ≠ 0#4 → decodeWord (0x9#4 ++ x ++ y ++ n) = .unknown (0x9#4 ++ x ++ y ++ n)) ∧
      ∃ t : State, exec (.sneReg x y) s = .next t ∧
        t.pc = (if s.reg x ≠ s.reg y then s.pc + 4#16 else s.pc + 2#16) ∧ KeepsAllBut {} s t)

/-- `Bnnn`: `pc` becomes `nnn + V0`, not reduced to 12 bits (41_flow section 2; the spec's decision D20). -/
def Obligations.JumpAddsVZero : Prop :=
  ∀ (nnn : Addr12) (s : State),
    ∃ t : State, exec (.jpV0 nnn) s = .next t ∧ t.pc.toNat = nnn.toNat + (s.reg 0#4).toNat ∧ KeepsAllBut {} s t

/-! ## Register and ALU instructions -/

/-- The plain loads into a register: `6xkk` (R101), `8xy0` (R103), `Fx07` (R142). Only `V[x]` and `pc` change, VF
included unless `x` names it. -/
def Obligations.LoadsWriteRegister : Prop :=
  ∀ (x y : Nibble) (kk : Byte) (s : State),
    (decodeWord (0x6#4 ++ x ++ kk) = .instr (.ldImm x kk) ∧
      ∃ t : State, exec (.ldImm x kk) s = .next t ∧ t.reg x = kk ∧ t.pc = s.pc + 2#16 ∧
        KeepsAllBut { regs := [x] } s t) ∧
    (decodeWord (0x8#4 ++ x ++ y ++ 0x0#4) = .instr (.ldReg x y) ∧
      ∃ t : State, exec (.ldReg x y) s = .next t ∧ t.reg x = s.reg y ∧ t.pc = s.pc + 2#16 ∧
        KeepsAllBut { regs := [x] } s t) ∧
    (decodeWord (0xF#4 ++ x ++ 0x07#8) = .instr (.ldVxDt x) ∧
      ∃ t : State, exec (.ldVxDt x) s = .next t ∧ t.reg x = s.dt ∧ t.pc = s.pc + 2#16 ∧
        KeepsAllBut { regs := [x] } s t)

/-- `7xkk` (R102): the sum mod 256, and no flag: VF is unchanged unless `x` names it. -/
def Obligations.AddImmediateWraps : Prop :=
  ∀ (x : Nibble) (kk : Byte) (s : State), decodeWord (0x7#4 ++ x ++ kk) = .instr (.addImm x kk) ∧
    ∃ t : State, exec (.addImm x kk) s = .next t ∧ (t.reg x).toNat = ((s.reg x).toNat + kk.toNat) % 256 ∧
      t.pc = s.pc + 2#16 ∧ KeepsAllBut { regs := [x] } s t

/-- `8xy1` (R104), `8xy2` (R105), `8xy3` (R106): bit by bit over 8 bits, and no flag. -/
def Obligations.LogicIsBitwise : Prop :=
  ∀ (x y : Nibble) (s : State),
    (decodeWord (0x8#4 ++ x ++ y ++ 0x1#4) = .instr (.orReg x y) ∧
      ∃ t : State, exec (.orReg x y) s = .next t ∧
        (∀ k < 8, (t.reg x).getLsbD k = ((s.reg x).getLsbD k || (s.reg y).getLsbD k)) ∧ t.pc = s.pc + 2#16 ∧
        KeepsAllBut { regs := [x] } s t) ∧
    (decodeWord (0x8#4 ++ x ++ y ++ 0x2#4) = .instr (.andReg x y) ∧
      ∃ t : State, exec (.andReg x y) s = .next t ∧
        (∀ k < 8, (t.reg x).getLsbD k = ((s.reg x).getLsbD k && (s.reg y).getLsbD k)) ∧ t.pc = s.pc + 2#16 ∧
        KeepsAllBut { regs := [x] } s t) ∧
    (decodeWord (0x8#4 ++ x ++ y ++ 0x3#4) = .instr (.xorReg x y) ∧
      ∃ t : State, exec (.xorReg x y) s = .next t ∧
        (∀ k < 8, (t.reg x).getLsbD k = ((s.reg x).getLsbD k ^^ (s.reg y).getLsbD k)) ∧ t.pc = s.pc + 2#16 ∧
        KeepsAllBut { regs := [x] } s t)

/-- `8xy4`: the sum mod 256 in `V[x]`, whatever `x` is; the carry in VF when `x` is not 15 (42_alu section 2; operands
read first, and the result over the flag when `x` = 15, is the spec's decision D7). -/
def Obligations.AddSetsCarry : Prop :=
  ∀ (x y : Nibble) (s : State),
    ∃ t : State, exec (.addReg x y) s = .next t ∧
      (t.reg x).toNat = ((s.reg x).toNat + (s.reg y).toNat) % 256 ∧
      (x ≠ 15#4 → (t.reg 15#4).toNat = if 255 < (s.reg x).toNat + (s.reg y).toNat then 1 else 0) ∧
      t.pc = s.pc + 2#16 ∧ KeepsAllBut { regs := [x, 15#4] } s t

/-- `8xy5`: the difference mod 256 in `V[x]`; VF = 1 iff `V[x] >= V[y]` when `x` is not 15 (42_alu section 2; D7). -/
def Obligations.SubtractSetsNoBorrow : Prop :=
  ∀ (x y : Nibble) (s : State),
    ∃ t : State, exec (.sub x y) s = .next t ∧
      (t.reg x).toNat = ((s.reg x).toNat + 256 - (s.reg y).toNat) % 256 ∧
      (x ≠ 15#4 → (t.reg 15#4).toNat = if (s.reg y).toNat ≤ (s.reg x).toNat then 1 else 0) ∧
      t.pc = s.pc + 2#16 ∧ KeepsAllBut { regs := [x, 15#4] } s t

/-- `8xy7`: the reverse difference mod 256 in `V[x]`; VF = 1 iff `V[y] >= V[x]` when `x` is not 15 (42_alu section 2;
D7). -/
def Obligations.ReverseSubtractSetsNoBorrow : Prop :=
  ∀ (x y : Nibble) (s : State),
    ∃ t : State, exec (.subn x y) s = .next t ∧
      (t.reg x).toNat = ((s.reg y).toNat + 256 - (s.reg x).toNat) % 256 ∧
      (x ≠ 15#4 → (t.reg 15#4).toNat = if (s.reg x).toNat ≤ (s.reg y).toNat then 1 else 0) ∧
      t.pc = s.pc + 2#16 ∧ KeepsAllBut { regs := [x, 15#4] } s t

/-- `8xy6`: `V[x] div 2` in `V[x]`, the bit shifted out in VF when `x` is not 15; `y` does not matter (42_alu section 2;
D7). -/
def Obligations.ShiftRightKeepsLowBit : Prop :=
  ∀ (x y : Nibble) (s : State), (∀ y' : Nibble, exec (.shr x y') s = exec (.shr x y) s) ∧
    ∃ t : State, exec (.shr x y) s = .next t ∧ (t.reg x).toNat = (s.reg x).toNat / 2 ∧
      (x ≠ 15#4 → (t.reg 15#4).toNat = (s.reg x).toNat % 2) ∧
      t.pc = s.pc + 2#16 ∧ KeepsAllBut { regs := [x, 15#4] } s t

/-- `8xyE`: `V[x] * 2 mod 256` in `V[x]`, the bit shifted out in VF when `x` is not 15; `y` does not matter (42_alu
section 2; D7). -/
def Obligations.ShiftLeftKeepsHighBit : Prop :=
  ∀ (x y : Nibble) (s : State), (∀ y' : Nibble, exec (.shl x y') s = exec (.shl x y) s) ∧
    ∃ t : State, exec (.shl x y) s = .next t ∧ (t.reg x).toNat = (s.reg x).toNat * 2 % 256 ∧
      (x ≠ 15#4 → (t.reg 15#4).toNat = (s.reg x).toNat / 128) ∧
      t.pc = s.pc + 2#16 ∧ KeepsAllBut { regs := [x, 15#4] } s t

/-- `Cxkk`: the step's random byte, whatever it is, ANDed with `kk` (42_alu section 2; that the byte is an input of the
`step` is the spec's decision D11). -/
def Obligations.RandomIsMasked : Prop :=
  ∀ (x : Nibble) (kk : Byte) (s : State) (inp : Inputs), s.nextOp = .step inp →
    ∃ t : State, exec (.rnd x kk) s = .next t ∧
      (∀ k < 8, (t.reg x).getLsbD k = (inp.rnd.getLsbD k && kk.getLsbD k)) ∧ t.pc = s.pc + 2#16 ∧
      KeepsAllBut { regs := [x] } s t

/-! ## Index register and memory -/

/-- `Annn` (R121): `I` becomes `nnn`, zero-extended, with no check. -/
def Obligations.LoadIndexSetsIndex : Prop :=
  ∀ (nnn : Addr12) (s : State), decodeWord (0xA#4 ++ nnn) = .instr (.ldI nnn) ∧
    ∃ t : State, exec (.ldI nnn) s = .next t ∧ t.index.toNat = nnn.toNat ∧ t.pc = s.pc + 2#16 ∧
      KeepsAllBut { index := true } s t

/-- `Fx1E`: the sum mod 65536, no flag, no error (43_index_memory section 2; the spec's decision D12). -/
def Obligations.AddToIndexWraps : Prop :=
  ∀ (x : Nibble) (s : State),
    ∃ t : State, exec (.addI x) s = .next t ∧
      t.index.toNat = (s.index.toNat + (s.reg x).toNat) % 65536 ∧ t.pc = s.pc + 2#16 ∧
      KeepsAllBut { index := true } s t

/-- `Fx29`: five times the whole byte (43_index_memory section 2; not masking it is the spec's decision D23). -/
def Obligations.FontAddressIsFiveTimesDigit : Prop :=
  ∀ (x : Nibble) (s : State),
    ∃ t : State, exec (.ldF x) s = .next t ∧ t.index.toNat = (s.reg x).toNat * 5 ∧ t.pc = s.pc + 2#16 ∧
      KeepsAllBut { index := true } s t

/-- `Fx33` with `I` at most 0x0FFD: the three decimal digits of `V[x]` at `I`, `I + 1`, `I + 2`, and every other byte as
it was (43_index_memory section 2; that `I` stays is the spec's decision D13). -/
def Obligations.BcdStoresDigits : Prop :=
  ∀ (x : Nibble) (s : State), Legal s → s.index.toNat + 2 ≤ 0xFFF →
    ∃ t : State, exec (.ldB x) s = .next t ∧
      (t.readByte s.index.toNat).toNat = (s.reg x).toNat / 100 ∧
      (t.readByte (s.index.toNat + 1)).toNat = (s.reg x).toNat / 10 % 10 ∧
      (t.readByte (s.index.toNat + 2)).toNat = (s.reg x).toNat % 10 ∧ t.pc = s.pc + 2#16 ∧
      KeepsAllBut { bytes := List.range' s.index.toNat 3 } s t

/-- `Fx55` with `I + x` at most 0xFFF: `V[k]` at `I + k` for every `k` up to `x`, and every other byte as it was
(43_index_memory section 2; D13). -/
def Obligations.BlockStoreWritesEachRegister : Prop :=
  ∀ (x : Nibble) (s : State), Legal s → s.index.toNat + x.toNat ≤ 0xFFF →
    ∃ t : State, exec (.stRegs x) s = .next t ∧
      (∀ k : Nibble, k ≤ x → t.readByte (s.index.toNat + k.toNat) = s.reg k) ∧ t.pc = s.pc + 2#16 ∧
      KeepsAllBut { bytes := List.range' s.index.toNat (x.toNat + 1) } s t

/-- `Fx65` with `I + x` at most 0xFFF: the byte at `I + k` in `V[k]` for every `k` up to `x`, the registers above `x` as
they were (43_index_memory section 2; D13). -/
def Obligations.BlockLoadReadsEachRegister : Prop :=
  ∀ (x : Nibble) (s : State), s.index.toNat + x.toNat ≤ 0xFFF →
    ∃ t : State, exec (.ldRegs x) s = .next t ∧
      (∀ k : Nibble, k ≤ x → t.reg k = s.readByte (s.index.toNat + k.toNat)) ∧ t.pc = s.pc + 2#16 ∧
      KeepsAllBut { regs := (List.range (x.toNat + 1)).map (BitVec.ofNat 4) } s t

/-- The data bounds, exactly: each instruction that addresses memory through `I` ends with AddressOutOfRange if and only
if some address it touches is above 0xFFF, computed with no wrap; `n` = 0 never faults (20_memory section 3; the spec's
decisions D4 and D19). -/
def Obligations.DataBoundsAreExact : Prop :=
  ∀ (x y n : Nibble) (s : State),
    (exec (.drw x y n) s = .fault .addressOutOfRange ↔ 1 ≤ n.toNat ∧ 0xFFF < s.index.toNat + n.toNat - 1) ∧
    (exec (.ldB x) s = .fault .addressOutOfRange ↔ 0xFFF < s.index.toNat + 2) ∧
    (exec (.stRegs x) s = .fault .addressOutOfRange ↔ 0xFFF < s.index.toNat + x.toNat) ∧
    (exec (.ldRegs x) s = .fault .addressOutOfRange ↔ 0xFFF < s.index.toNat + x.toNat)

/-! ## Display -/

/-- `00E0` (R131): every cell 0, VF not written. -/
def Obligations.ClearDisplayClearsEveryCell : Prop :=
  ∀ s : State, decodeWord 0x00E0#16 = .instr .cls ∧
    ∃ t : State, exec .cls s = .next t ∧ (∀ row col, Frame.cell t.fb row col = false) ∧ t.pc = s.pc + 2#16 ∧
      KeepsAllBut { fb := true } s t

/-- `Dxyn` in range: a cell is 1 afterwards exactly if it was 1 or the sprite covers it, not both, every pixel wrapped
by itself; VF is 1 if some cell went from 1 to 0, else 0 (44_display section 2; the bit order is the spec's decision D9,
`n` = 0 its D19, operands before VF its D7, wrap its D22). -/
def Obligations.DrawXorsWrappedSprite : Prop :=
  ∀ (x y n : Nibble) (s : State), n.toNat = 0 ∨ s.index.toNat + n.toNat - 1 ≤ 0xFFF →
    ∃ t : State, exec (.drw x y n) s = .next t ∧
      (∀ row col, Frame.cell t.fb row col = true ↔
        ¬ (Frame.cell s.fb row col = true ↔ SpriteCovers s x y n row col)) ∧
      ((∃ row col, Frame.cell s.fb row col = true ∧ Frame.cell t.fb row col = false) → t.reg 15#4 = 0x01#8) ∧
      ((∀ row col, Frame.cell s.fb row col = true → Frame.cell t.fb row col = true) → t.reg 15#4 = 0x00#8) ∧
      t.pc = s.pc + 2#16 ∧ KeepsAllBut { regs := [15#4], fb := true } s t

/-- Drawing the same sprite twice at the same place restores the display; if it first lands on clear cells and has a set
bit, VF reports a collision only the second time (44_display section 2). Which cells the sprite covers rests on the spec's
decisions D9, the bit order it takes from general knowledge (log 12, PRESUMED), and D22, the wrap; `n` = 0 is its D19. `x`
and `y` are not VF, which the first draw overwrites; a single draw with `x` or `y` = 15 is in DrawXorsWrappedSprite. -/
def Obligations.DrawTwiceRestoresDisplay : Prop :=
  ∀ (x y n : Nibble) (s : State), x ≠ 15#4 → y ≠ 15#4 → n.toNat = 0 ∨ s.index.toNat + n.toNat - 1 ≤ 0xFFF →
    ∃ t u : State, exec (.drw x y n) s = .next t ∧ exec (.drw x y n) t = .next u ∧ u.fb = s.fb ∧
      ((∀ row col, SpriteCovers s x y n row col → Frame.cell s.fb row col = false) →
        (∃ row col, SpriteCovers s x y n row col) → t.reg 15#4 = 0x00#8 ∧ u.reg 15#4 = 0x01#8)

/-! ## Keys and timers -/

/-- `Ex9E` and `ExA1`: the skip looks at this step's snapshot, at the key of the low four bits of `V[x]` (45_keys_timers
sections 1 and 2; the low four bits are the spec's decision D10). -/
def Obligations.KeySkipsReadSnapshot : Prop :=
  ∀ (x : Nibble) (s : State) (inp : Inputs), s.nextOp = .step inp →
    (∃ t : State, exec (.skp x) s = .next t ∧
      t.pc = (if inp.keys.getLsbD ((s.reg x).toNat % 16) = true then s.pc + 4#16 else s.pc + 2#16) ∧
      KeepsAllBut {} s t) ∧
    (∃ t : State, exec (.sknp x) s = .next t ∧
      t.pc = (if inp.keys.getLsbD ((s.reg x).toNat % 16) = false then s.pc + 4#16 else s.pc + 2#16) ∧
      KeepsAllBut {} s t)

/-- `Fx0A`: the wait begins, `x` is recorded, `pc` and the registers stay, whatever keys are down (45_keys_timers
section 1; that this step looks at no key is the spec's decision D25). -/
def Obligations.KeyWaitBegins : Prop :=
  ∀ (x : Nibble) (s : State),
    ∃ t : State, exec (.ldVxK x) s = .next t ∧ t.waiting = true ∧ t.waitDest = x ∧ t.pc = s.pc ∧
      KeepsAllBut { wait := true } s t

/-- `Fx15` (R144) and `Fx18` (R145): the timer takes the value of `V[x]`. -/
def Obligations.TimersTakeRegister : Prop :=
  ∀ (x : Nibble) (s : State),
    (decodeWord (0xF#4 ++ x ++ 0x15#8) = .instr (.ldDtVx x) ∧
      ∃ t : State, exec (.ldDtVx x) s = .next t ∧ t.dt = s.reg x ∧ t.pc = s.pc + 2#16 ∧
        KeepsAllBut { dt := true } s t) ∧
    (decodeWord (0xF#4 ++ x ++ 0x18#8) = .instr (.ldStVx x) ∧
      ∃ t : State, exec (.ldStVx x) s = .next t ∧ t.st = s.reg x ∧ t.pc = s.pc + 2#16 ∧
        KeepsAllBut { st := true } s t)

/-! ## The whole machine -/

/-- Nothing is refused, and an error comes only from the six instructions that can raise one (RET, CALL, DRW, `Fx33`,
`Fx55`, `Fx65`), under the condition the spec gives (60_exceptions section 1); `sp` of 17 to 31 is the model's own (log 6). -/
def Obligations.ErrorsComeOnlyFromTheirCauses : Prop :=
  ∀ (i : Instr) (s : State), (∀ r, exec i s ≠ .refused r) ∧
    ∀ f, exec i s = .fault f →
      (i = .ret ∧ (f = .stackUnderflow ∧ s.sp = 0#5 ∨ f = .stackPointerOutOfRange ∧ 16 < s.sp.toNat)) ∨
      (∃ nnn, i = .call nnn ∧
        (f = .stackOverflow ∧ s.sp = 16#5 ∨ f = .stackPointerOutOfRange ∧ 16 < s.sp.toNat)) ∨
      (f = .addressOutOfRange ∧
        ((∃ x y n, i = .drw x y n ∧ 1 ≤ n.toNat ∧ 0xFFF < s.index.toNat + n.toNat - 1) ∨
         (∃ x, i = .ldB x ∧ 0xFFF < s.index.toNat + 2) ∨
         (∃ x, i = .stRegs x ∧ 0xFFF < s.index.toNat + x.toNat) ∨
         (∃ x, i = .ldRegs x ∧ 0xFFF < s.index.toNat + x.toNat)))

/-- Only the key skips read the key snapshot, only RND reads the random byte, and no instruction reads `key_event`
(40_operations section 5): two steps from the same core with inputs that agree where the instruction may look give the
same core. -/
def Obligations.InputsAreReadOnlyWhereAllowed : Prop :=
  ∀ (i : Instr) (s : State) (inp inp' : Inputs) (rest rest' : List EnvOp),
    (∀ x, i = .skp x ∨ i = .sknp x → inp.keys = inp'.keys) → (∀ x kk, i = .rnd x kk → inp.rnd = inp'.rnd) →
    mapNext (fun t => { t with agenda := [] }) (exec i { s with agenda := .step inp :: rest }) =
      mapNext (fun t => { t with agenda := [] }) (exec i { s with agenda := .step inp' :: rest' })

/-- The two invariants hold after reset (10_state sections 3, 4 and 9). -/
def Obligations.InvariantsHoldAtReset : Prop := Legal State.reset ∧ PcBounded State.reset

/-- Every step, whatever operation it is, keeps memory in canonical form within 0x000 to 0xFFF and the depth at most 16,
and never changes FONT (20_memory section 3, 10_state section 4; the canonical form and FONT as a field are the model's,
log 4 and 15). -/
def Obligations.StepKeepsMemoryAndDepthLegal : Prop :=
  ∀ s t : State, Legal s → step s = .next t → Legal t ∧ t.font = s.font

/-- Every step keeps `pc` at most 0x10FE, and the live call-stack entries addresses of fetched instructions, so the
reduction mod 65536 is never exercised (the spec's inference in 10_state section 3, from its decision D20). -/
def Obligations.StepKeepsPcBounded : Prop :=
  ∀ s t : State, PcBounded s → step s = .next t → PcBounded t

/-- WaitingForKey is entered only by `Fx0A`, which records its register and leaves `pc` at itself (40_operations
section 6). -/
def Obligations.WaitIsEnteredOnlyByKeyInstruction : Prop :=
  ∀ s t : State, step s = .next t → s.waiting = false → t.waiting = true →
    ∃ x : Nibble, AboutToRun s (.ldVxK x) ∧ t.waitDest = x ∧ t.pc = s.pc

/-- WaitingForKey is left only by `reset`, or by a `step` with a key event and some key down (40_operations
section 6). -/
def Obligations.WaitIsLeftOnlyByKeyOrReset : Prop :=
  ∀ s t : State, step s = .next t → s.waiting = true → t.waiting = false →
    s.nextOp = .reset ∨ ∃ inp : Inputs, s.nextOp = .step inp ∧ inp.keyEvent = true ∧ ∃ k < 16, inp.keys.getLsbD k = true

/-- The display is changed only by `00E0`, `Dxyn` and `reset` (10_state section 4). -/
def Obligations.DisplayChangesOnlyByDrawing : Prop :=
  ∀ s t : State, step s = .next t → t.fb ≠ s.fb →
    s.nextOp = .reset ∨ AboutToRun s .cls ∨ ∃ x y n : Nibble, AboutToRun s (.drw x y n)

/-- A byte of memory changes only by `reset`, by `load` inside its image, by `Fx33` at `I` to `I + 2` and by `Fx55` at
`I` to `I + x` (20_memory sections 1 and 5; the extents of the blocks are its section 3, the extent of the image is
40_operations section 3; that `load` leaves the bytes beyond its image is the spec's decision D17, log 17). -/
def Obligations.MemoryChangesOnlyByStores : Prop :=
  ∀ (s t : State) (a : Nat), Legal s → step s = .next t → t.readByte a ≠ s.readByte a →
    s.nextOp = .reset ∨
    (∃ image, s.nextOp = .load image ∧ 0x200 ≤ a ∧ a < 0x200 + image.length) ∨
    (∃ x, AboutToRun s (.ldB x) ∧ s.index.toNat ≤ a ∧ a ≤ s.index.toNat + 2) ∨
    (∃ x, AboutToRun s (.stRegs x) ∧ s.index.toNat ≤ a ∧ a ≤ s.index.toNat + x.toNat)

/-- No operation raises a timer but the instruction that writes it, and a `step` that does not write it leaves it as it
was (10_state section 4, 70_reset_and_hazards section 3). -/
def Obligations.TimersFallUnlessWritten : Prop :=
  ∀ s t : State, step s = .next t →
    (t.dt.toNat ≤ s.dt.toNat ∨ ∃ x, AboutToRun s (.ldDtVx x)) ∧
    (t.st.toNat ≤ s.st.toNat ∨ ∃ x, AboutToRun s (.ldStVx x)) ∧
    (∀ inp, s.nextOp = .step inp →
      (t.dt = s.dt ∨ ∃ x, AboutToRun s (.ldDtVx x)) ∧ (t.st = s.st ∨ ∃ x, AboutToRun s (.ldStVx x)))

/-- The depth and the slots change only by `2nnn`, `00EE` and `reset`, `I` only by `Annn`, `Fx1E`, `Fx29` and `reset`
(10_state section 4). That `Dxyn`, `Fx33`, `Fx55` and `Fx65` leave `I` is the spec's decision D13 (log 14). -/
def Obligations.StackAndIndexHaveFewWriters : Prop :=
  ∀ s t : State, step s = .next t →
    (t.sp ≠ s.sp ∨ t.stack ≠ s.stack → s.nextOp = .reset ∨ AboutToRun s .ret ∨ ∃ nnn, AboutToRun s (.call nnn)) ∧
    (t.index ≠ s.index →
      s.nextOp = .reset ∨ (∃ nnn, AboutToRun s (.ldI nnn)) ∨ (∃ x, AboutToRun s (.addI x)) ∨
        ∃ x, AboutToRun s (.ldF x))

/-- A jump to its own address runs for ever, for any number of steps with any inputs, and the core does not change
(41_flow section 2, 40_operations section 8). -/
def Obligations.JumpToItselfSpins : Prop :=
  ∀ (s : State) (nnn : Addr12) (inputs : List Inputs) (rest : List EnvOp), AboutToRun s (.jp nnn) →
    nnn.toNat = s.pc.toNat → s.agenda = inputs.map EnvOp.step ++ rest →
    RunsTo inputs.length s { s with agenda := rest }

/-- A wait that no qualifying step ends persists for any number of steps, and the core does not change (40_operations
section 6). -/
def Obligations.UnansweredWaitPersists : Prop :=
  ∀ (s : State) (inputs : List Inputs) (rest : List EnvOp), s.waiting = true →
    s.agenda = inputs.map EnvOp.step ++ rest → (∀ inp ∈ inputs, inp.keyEvent = false ∨ inp.keys = 0#16) →
    RunsTo inputs.length s { s with agenda := rest }
end

