-- ==== Sys2Proof/Laws/Decode.lean ====
section
/-! SUPPORT. The fields of an encoded word (R6, R51): each format gives back the fields it was packed from, and a word
is packed from its own fields. Each is read off the words' values as numbers. -/

namespace Sys2Proof

theorem toNat_append_mul (m n : Nat) (a : BitVec m) (b : BitVec n) : (a ++ b).toNat = a.toNat * 2 ^ n + b.toNat := by
  rw [BitVec.toNat_append, ← Nat.shiftLeft_add_eq_or_of_lt b.isLt, Nat.shiftLeft_eq]

theorem toNat_packNnn (op : Nibble) (a : Addr12) : (packNnn op a).toNat = op.toNat * 4096 + a.toNat :=
  toNat_append_mul 4 12 op a

theorem toNat_packXkk (op x : Nibble) (kk : Byte) :
    (packXkk op x kk).toNat = op.toNat * 4096 + x.toNat * 256 + kk.toNat :=
  (toNat_append_mul 8 8 (op ++ x) kk).trans (by rw [toNat_append_mul 4 4]; ring)

theorem toNat_packXyn (op x y n : Nibble) :
    (packXyn op x y n).toNat = op.toNat * 4096 + x.toNat * 256 + y.toNat * 16 + n.toNat :=
  (toNat_append_mul 8 8 (op ++ x) (y ++ n)).trans (by rw [toNat_append_mul 4 4, toNat_append_mul 4 4]; ring)

theorem toNat_opField (w : Word) : (opField w).toNat = w.toNat / 4096 % 16 := by
  simp [opField, Nat.shiftRight_eq_div_pow]

theorem toNat_xField (w : Word) : (xField w).toNat = w.toNat / 256 % 16 := by
  simp [xField, Nat.shiftRight_eq_div_pow]

theorem toNat_yField (w : Word) : (yField w).toNat = w.toNat / 16 % 16 := by
  simp [yField, Nat.shiftRight_eq_div_pow]

theorem toNat_nField (w : Word) : (nField w).toNat = w.toNat % 16 := by
  simp [nField]

theorem toNat_kkField (w : Word) : (kkField w).toNat = w.toNat % 256 := by
  simp [kkField]

theorem toNat_nnnField (w : Word) : (nnnField w).toNat = w.toNat % 4096 := by
  simp [nnnField]

@[simp] theorem opField_packNnn (op : Nibble) (a : Addr12) : opField (packNnn op a) = op := by
  apply BitVec.eq_of_toNat_eq
  have := op.isLt
  have := a.isLt
  rw [toNat_opField, toNat_packNnn]
  omega

@[simp] theorem nnnField_packNnn (op : Nibble) (a : Addr12) : nnnField (packNnn op a) = a := by
  apply BitVec.eq_of_toNat_eq
  have := a.isLt
  rw [toNat_nnnField, toNat_packNnn]
  omega

@[simp] theorem opField_packXkk (op x : Nibble) (kk : Byte) : opField (packXkk op x kk) = op := by
  apply BitVec.eq_of_toNat_eq
  have := op.isLt
  have := x.isLt
  have := kk.isLt
  rw [toNat_opField, toNat_packXkk]
  omega

@[simp] theorem xField_packXkk (op x : Nibble) (kk : Byte) : xField (packXkk op x kk) = x := by
  apply BitVec.eq_of_toNat_eq
  have := x.isLt
  have := kk.isLt
  rw [toNat_xField, toNat_packXkk]
  omega

@[simp] theorem kkField_packXkk (op x : Nibble) (kk : Byte) : kkField (packXkk op x kk) = kk := by
  apply BitVec.eq_of_toNat_eq
  have := kk.isLt
  rw [toNat_kkField, toNat_packXkk]
  omega

@[simp] theorem opField_packXyn (op x y n : Nibble) : opField (packXyn op x y n) = op := by
  apply BitVec.eq_of_toNat_eq
  have := op.isLt
  have := x.isLt
  have := y.isLt
  have := n.isLt
  rw [toNat_opField, toNat_packXyn]
  omega

@[simp] theorem xField_packXyn (op x y n : Nibble) : xField (packXyn op x y n) = x := by
  apply BitVec.eq_of_toNat_eq
  have := x.isLt
  have := y.isLt
  have := n.isLt
  rw [toNat_xField, toNat_packXyn]
  omega

@[simp] theorem yField_packXyn (op x y n : Nibble) : yField (packXyn op x y n) = y := by
  apply BitVec.eq_of_toNat_eq
  have := y.isLt
  have := n.isLt
  rw [toNat_yField, toNat_packXyn]
  omega

@[simp] theorem nField_packXyn (op x y n : Nibble) : nField (packXyn op x y n) = n := by
  apply BitVec.eq_of_toNat_eq
  have := n.isLt
  rw [toNat_nField, toNat_packXyn]
  omega

/-- A word is packed from its `op` and `nnn`. -/
theorem packNnn_fields (w : Word) : packNnn (opField w) (nnnField w) = w := by
  apply BitVec.eq_of_toNat_eq
  have := w.isLt
  rw [toNat_packNnn, toNat_opField, toNat_nnnField]
  omega

/-- A word is packed from its `op`, `x` and `kk`. -/
theorem packXkk_fields (w : Word) : packXkk (opField w) (xField w) (kkField w) = w := by
  apply BitVec.eq_of_toNat_eq
  have := w.isLt
  rw [toNat_packXkk, toNat_opField, toNat_xField, toNat_kkField]
  omega

/-- A word is packed from its four nibbles. -/
theorem packXyn_fields (w : Word) : packXyn (opField w) (xField w) (yField w) (nField w) = w := by
  apply BitVec.eq_of_toNat_eq
  have := w.isLt
  rw [toNat_packXyn, toNat_opField, toNat_xField, toNat_yField, toNat_nField]
  omega

/-- A word laid out in memory order and read back is the word (R32). -/
theorem wordOfBytes_bytesOfWord (w : Word) (hi lo : Byte) (h : bytesOfWord w = [hi, lo]) : wordOfBytes hi lo = w := by
  simp only [bytesOfWord, List.cons.injEq, and_true] at h
  obtain ⟨rfl, rfl⟩ := h
  apply BitVec.eq_of_toNat_eq
  have := w.isLt
  rw [show wordOfBytes (w.extractLsb' 8 8) (w.extractLsb' 0 8) = w.extractLsb' 8 8 ++ w.extractLsb' 0 8 from rfl,
    toNat_append_mul 8 8]
  simp [Nat.shiftRight_eq_div_pow]
  omega

/-! Words written as fields joined from the left -/

theorem append_nnn (op : Nibble) (nnn : Addr12) : (op ++ nnn : Word) = packNnn op nnn := rfl

theorem append_xkk (op x : Nibble) (kk : Byte) : (op ++ x ++ kk : Word) = packXkk op x kk := rfl

theorem append_xyn (op x y n : Nibble) : (op ++ x ++ y ++ n : Word) = packXyn op x y n := by
  apply BitVec.eq_of_toNat_eq
  rw [toNat_packXyn]
  refine (toNat_append_mul 12 4 (op ++ x ++ y) n).trans ?_
  rw [toNat_append_mul 8 4 (op ++ x) y, toNat_append_mul 4 4]
  ring

end Sys2Proof
end

