-- ==== Sys2Proof/Laws/Draw.lean ====
section
/-! SUPPORT. The laws of the display: a cell after a flip, after a clear, and one pixel of a draw (R130, R132). -/

namespace Sys2Proof.Machine

theorem Frame.cell_flip (f : Frame) (row row' : Fin 32) (col col' : Fin 64) :
    Frame.cell (Frame.flip f row col) row' col' =
      if row' = row ∧ col' = col then !Frame.cell f row col else Frame.cell f row' col' := by
  unfold Frame.cell Frame.flip
  by_cases hr : row' = row
  · subst hr
    by_cases hc : col' = col
    · subst hc
      simp
    · have : (col : Nat) ≠ col' := fun e => hc (Fin.ext e.symm)
      simp [hc, this]
  · have : (row : Nat) ≠ row' := fun e => hr (Fin.ext e.symm)
    simp [hr, this]

@[simp] theorem Frame.cell_clear (row : Fin 32) (col : Fin 64) : Frame.cell Frame.clear row col = false := by
  simp [Frame.cell, Frame.clear]

/-- Two displays with the same cells are the same display. -/
theorem Frame.ext_cell (f g : Frame) (h : ∀ row col, Frame.cell f row col = Frame.cell g row col) : f = g := by
  apply Vector.ext
  intro r hr
  apply Vector.ext
  intro c hc
  exact h ⟨r, hr⟩ ⟨c, hc⟩

/-- One pixel: a clear sprite bit changes nothing; a set one flips its cell and reports whether it was set (R132). -/
theorem drawPixel_eq (px py r : Nat) (b : Byte) (f : Frame) (coll : Bool) (c : Nat) :
    drawPixel px py r b (f, coll) c =
      if b.getLsbD (7 - c) then
        (Frame.flip f (Fin.ofNat 32 (py + r)) (Fin.ofNat 64 (px + c)),
          coll || Frame.cell f (Fin.ofNat 32 (py + r)) (Fin.ofNat 64 (px + c)))
      else (f, coll) := by
  unfold drawPixel spriteBit
  split_ifs <;> rfl

end Sys2Proof.Machine
end

