-- ==== Sys2Proof/Laws/Memory.lean ====
section
/-! SUPPORT. The laws of memory: a read after a write, and that every memory operation keeps the canonical form. -/

namespace Sys2Proof.Machine

theorem Memory.find_put (a b : Nat) (x : Byte) (m : Memory) (h : m.Pairwise (fun c d => c.1 < d.1)) :
    Memory.find b (Memory.put a x m) = if b = a then some x else Memory.find b m := by
  induction m with
  | nil => by_cases e : b = a <;> simp [Memory.put, Memory.find, e, eq_comm (a := a) (b := b)]
  | cons c m ih =>
    obtain ⟨k, y⟩ := c
    have ih := ih h.of_cons
    rw [Memory.put]
    by_cases e : b = a
    · subst e
      by_cases h1 : b < k
      · simp [h1, Memory.find]
      · by_cases h2 : b = k
        · simp [h2, Memory.find]
        · simp [h1, h2, Ne.symm h2, Memory.find, ih]
    · by_cases h1 : a < k
      · simp [h1, Memory.find, Ne.symm e, e]
      · by_cases h2 : a = k
        · subst h2
          simp [Memory.find, Ne.symm e, e]
        · simp [h1, h2, Memory.find, ih, e]

theorem Memory.find_none_of_lt (a : Nat) (m : Memory) (h : ∀ c ∈ m, a < c.1) : Memory.find a m = none := by
  induction m with
  | nil => rfl
  | cons c m ih =>
    have h1 := h c (by simp)
    rw [Memory.find, if_neg (by omega)]
    exact ih fun d hd => h d (by simp [hd])

theorem Memory.find_drop (a b : Nat) (m : Memory) (h : m.Pairwise (fun c d => c.1 < d.1)) :
    Memory.find b (Memory.drop a m) = if b = a then none else Memory.find b m := by
  induction m with
  | nil => simp [Memory.drop, Memory.find]
  | cons c m ih =>
    obtain ⟨k, y⟩ := c
    have ih := ih h.of_cons
    have hk : ∀ d ∈ m, k < d.1 := fun _ => List.rel_of_pairwise_cons h
    rw [Memory.drop]
    split_ifs with h1 h2 h2
    · subst h1 h2
      exact Memory.find_none_of_lt _ _ hk
    · subst h1
      simp [Memory.find, Ne.symm h2]
    · subst h2
      simp [Memory.find, h1, ih]
    · simp [Memory.find, ih, h2]

/-- A read after a write: the byte written at its address, every other address as it was (R33). -/
theorem Memory.read_write (font : Vector Byte 80) (m : Memory) (h : m.Pairwise (fun c d => c.1 < d.1)) (a b : Nat)
    (x : Byte) :
    Memory.read font (Memory.write font m a x) b = if b = a then x else Memory.read font m b := by
  unfold Memory.write Memory.read
  split_ifs with h1 h2 h2
  · subst h2
    simp [Memory.find_drop _ _ _ h, h1]
  · simp [Memory.find_drop _ _ _ h, h2]
  · simp [Memory.find_put _ _ _ _ h, h2]
  · simp [Memory.find_put _ _ _ _ h, h2]

theorem Memory.mem_put (a : Nat) (x : Byte) (m : Memory) (c : Host.Cell) (h : c ∈ Memory.put a x m) :
    c = (a, x) ∨ c ∈ m := by
  induction m with
  | nil => simpa [Memory.put] using h
  | cons d m ih =>
    rw [Memory.put] at h
    split_ifs at h with h1 h2
    · simpa using h
    · simp only [List.mem_cons] at h ⊢
      tauto
    · simp only [List.mem_cons] at h ⊢
      tauto

theorem Memory.mem_drop (a : Nat) (m : Memory) (c : Host.Cell) (h : c ∈ Memory.drop a m) : c ∈ m := by
  induction m with
  | nil => exact h
  | cons d m ih =>
    rw [Memory.drop] at h
    split_ifs at h with h1
    · simp [h]
    · simp only [List.mem_cons] at h ⊢
      tauto

theorem Memory.rising_put (a : Nat) (x : Byte) (m : Memory) (h : m.Pairwise (fun c d => c.1 < d.1)) :
    (Memory.put a x m).Pairwise (fun c d => c.1 < d.1) := by
  induction m with
  | nil => simp [Memory.put]
  | cons d m ih =>
    have hd : ∀ c ∈ m, d.1 < c.1 := fun _ => List.rel_of_pairwise_cons h
    rw [Memory.put]
    split_ifs with h1 h2
    · refine List.pairwise_cons.2 ⟨fun c hc => ?_, h⟩
      rcases List.mem_cons.1 hc with rfl | hc
      · exact h1
      · exact lt_trans h1 (hd c hc)
    · subst h2
      exact List.pairwise_cons.2 ⟨hd, h.of_cons⟩
    · refine List.pairwise_cons.2 ⟨fun c hc => ?_, ih h.of_cons⟩
      rcases Memory.mem_put _ _ _ _ hc with rfl | hc
      · show d.1 < a
        omega
      · exact hd c hc

theorem Memory.rising_drop (a : Nat) (m : Memory) (h : m.Pairwise (fun c d => c.1 < d.1)) :
    (Memory.drop a m).Pairwise (fun c d => c.1 < d.1) := by
  induction m with
  | nil => exact h
  | cons d m ih =>
    have hd : ∀ c ∈ m, d.1 < c.1 := fun _ => List.rel_of_pairwise_cons h
    rw [Memory.drop]
    split_ifs with h1
    · exact h.of_cons
    · exact List.pairwise_cons.2 ⟨fun c hc => hd c (Memory.mem_drop _ _ _ hc), ih h.of_cons⟩

/-- A write to an address that exists keeps the canonical form. -/
theorem Memory.wf_write (font : Vector Byte 80) (m : Memory) (h : Memory.wf font m) (a : Nat) (x : Byte)
    (ha : a < Config.memSize) : Memory.wf font (Memory.write font m a x) := by
  unfold Memory.write
  split_ifs with h1
  · exact ⟨Memory.rising_drop _ _ h.1, fun c hc => h.2 c (Memory.mem_drop _ _ _ hc)⟩
  · refine ⟨Memory.rising_put _ _ _ h.1, fun c hc => ?_⟩
    rcases Memory.mem_put _ _ _ _ hc with rfl | hc
    · exact ⟨ha, h1⟩
    · exact h.2 c hc

/-- Writing a block of addresses that exist keeps the canonical form. -/
theorem Memory.wf_writeFrom (font : Vector Byte 80) (bs : List Byte) (m : Memory) (h : Memory.wf font m) (a : Nat)
    (ha : InRange a bs.length) : Memory.wf font (Memory.writeFrom font m a bs) := by
  induction bs generalizing m a with
  | nil => exact h
  | cons b bs ih =>
    rw [Memory.writeFrom]
    simp only [InRange, List.length_cons] at ha ih ⊢
    exact ih _ (Memory.wf_write _ _ h _ _ (by omega)) _ (by omega)

theorem Memory.rising_write (font : Vector Byte 80) (m : Memory) (h : m.Pairwise (fun c d => c.1 < d.1)) (a : Nat)
    (x : Byte) : (Memory.write font m a x).Pairwise (fun c d => c.1 < d.1) := by
  unfold Memory.write
  split_ifs
  · exact Memory.rising_drop _ _ h
  · exact Memory.rising_put _ _ _ h

/-- A read after a block write: the list's byte inside the block, every other address as it was. -/
theorem Memory.read_writeFrom (font : Vector Byte 80) (bs : List Byte) (m : Memory)
    (h : m.Pairwise (fun c d => c.1 < d.1)) (a b : Nat) :
    Memory.read font (Memory.writeFrom font m a bs) b =
      if a ≤ b then (bs[b - a]?).getD (Memory.read font m b) else Memory.read font m b := by
  induction bs generalizing m a with
  | nil => simp [Memory.writeFrom]
  | cons x bs ih =>
    rw [Memory.writeFrom, ih _ (Memory.rising_write _ _ h _ _), Memory.read_write _ _ h]
    rcases Nat.lt_trichotomy a b with hab | hab | hab
    · have e : b - a = (b - (a + 1)) + 1 := by omega
      simp [e, Nat.le_of_lt hab, show a + 1 ≤ b from hab, show b ≠ a by omega]
    · subst hab
      simp
    · simp [show ¬ a ≤ b by omega, show ¬ a + 1 ≤ b by omega, show b ≠ a by omega]

@[simp] theorem Memory.length_readFrom (font : Vector Byte 80) (m : Memory) (a n : Nat) :
    (Memory.readFrom font m a n).length = n := by
  induction n generalizing a with
  | zero => rfl
  | succ n ih => simp [Memory.readFrom, ih]

theorem Memory.getElem?_readFrom (font : Vector Byte 80) (m : Memory) (a n k : Nat) :
    (Memory.readFrom font m a n)[k]? = if k < n then some (Memory.read font m (a + k)) else none := by
  induction n generalizing a k with
  | zero => simp [Memory.readFrom]
  | succ n ih =>
    cases k with
    | zero => simp [Memory.readFrom]
    | succ k => simp [Memory.readFrom, ih, Nat.add_assoc, Nat.add_comm 1 k]

/-- The memory after reset is in canonical form. -/
theorem Memory.wf_reset : Memory.wf State.reset.font State.reset.mem := by
  exact ⟨List.Pairwise.nil, fun c hc => absurd hc List.not_mem_nil⟩

/-- A state's block write, when it answers, keeps the canonical form. -/
theorem State.writeBytes_wf (s t : State) (base : Nat) (bs : List Byte) (h : Memory.wf s.font s.mem)
    (ht : s.writeBytes base bs = some t) : Memory.wf t.font t.mem := by
  unfold State.writeBytes at ht
  split_ifs at ht with hr
  cases ht
  exact Memory.wf_writeFrom _ _ _ h _ hr

/-- A block write in range answers, with the new memory. -/
theorem State.writeBytes_eq (s : State) (base : Nat) (bs : List Byte) (h : InRange base bs.length) :
    s.writeBytes base bs = some (s.setMem (Memory.writeFrom s.font s.mem base bs)) := by
  simp only [State.writeBytes, if_pos h]

/-- A state's block write touches `mem` only, and only when every address of the block exists. -/
theorem State.writeBytes_some (s t : State) (base : Nat) (bs : List Byte) :
    s.writeBytes base bs = some t ↔
      InRange base bs.length ∧ t = s.setMem (Memory.writeFrom s.font s.mem base bs) := by
  unfold State.writeBytes
  split_ifs with h
  · simp [h, eq_comm]
  · simp [h]

/-- A state's block read answers exactly when every address of the block exists. -/
theorem State.readBytes_some (s : State) (base n : Nat) (bs : List Byte) :
    s.readBytes base n = some bs ↔ InRange base n ∧ bs = Memory.readFrom s.font s.mem base n := by
  unfold State.readBytes
  split_ifs with h
  · simp [h, eq_comm]
  · simp [h]

end Sys2Proof.Machine
end

