-- ==== Sys2Proof/Laws/State.lean ====
section
/-! SUPPORT. The field lemmas of the state's updates: what each leaves as it was, by rfl, and the value of the field it
writes. With them no later proof unfolds a record update. -/

namespace Sys2Proof.Machine

/-! `State.setReg` -/

@[simp] theorem State.setReg_mem (s : State) (x : Nibble) (b : Byte) : (s.setReg x b).mem = s.mem := rfl
@[simp] theorem State.setReg_pc (s : State) (x : Nibble) (b : Byte) : (s.setReg x b).pc = s.pc := rfl
@[simp] theorem State.setReg_index (s : State) (x : Nibble) (b : Byte) : (s.setReg x b).index = s.index := rfl
@[simp] theorem State.setReg_stack (s : State) (x : Nibble) (b : Byte) : (s.setReg x b).stack = s.stack := rfl
@[simp] theorem State.setReg_sp (s : State) (x : Nibble) (b : Byte) : (s.setReg x b).sp = s.sp := rfl
@[simp] theorem State.setReg_dt (s : State) (x : Nibble) (b : Byte) : (s.setReg x b).dt = s.dt := rfl
@[simp] theorem State.setReg_st (s : State) (x : Nibble) (b : Byte) : (s.setReg x b).st = s.st := rfl
@[simp] theorem State.setReg_fb (s : State) (x : Nibble) (b : Byte) : (s.setReg x b).fb = s.fb := rfl
@[simp] theorem State.setReg_waiting (s : State) (x : Nibble) (b : Byte) : (s.setReg x b).waiting = s.waiting := rfl
@[simp] theorem State.setReg_waitDest (s : State) (x : Nibble) (b : Byte) : (s.setReg x b).waitDest = s.waitDest := rfl
@[simp] theorem State.setReg_font (s : State) (x : Nibble) (b : Byte) : (s.setReg x b).font = s.font := rfl
@[simp] theorem State.setReg_agenda (s : State) (x : Nibble) (b : Byte) : (s.setReg x b).agenda = s.agenda := rfl
@[simp] theorem State.setReg_schedule (s : State) (x : Nibble) (b : Byte) : (s.setReg x b).schedule = s.schedule := rfl
@[simp] theorem State.setReg_draws (s : State) (x : Nibble) (b : Byte) : (s.setReg x b).draws = s.draws := rfl

/-! `State.setMem` -/

@[simp] theorem State.setMem_v (s : State) (m : Memory) : (s.setMem m).v = s.v := rfl
@[simp] theorem State.setMem_pc (s : State) (m : Memory) : (s.setMem m).pc = s.pc := rfl
@[simp] theorem State.setMem_index (s : State) (m : Memory) : (s.setMem m).index = s.index := rfl
@[simp] theorem State.setMem_stack (s : State) (m : Memory) : (s.setMem m).stack = s.stack := rfl
@[simp] theorem State.setMem_sp (s : State) (m : Memory) : (s.setMem m).sp = s.sp := rfl
@[simp] theorem State.setMem_dt (s : State) (m : Memory) : (s.setMem m).dt = s.dt := rfl
@[simp] theorem State.setMem_st (s : State) (m : Memory) : (s.setMem m).st = s.st := rfl
@[simp] theorem State.setMem_fb (s : State) (m : Memory) : (s.setMem m).fb = s.fb := rfl
@[simp] theorem State.setMem_waiting (s : State) (m : Memory) : (s.setMem m).waiting = s.waiting := rfl
@[simp] theorem State.setMem_waitDest (s : State) (m : Memory) : (s.setMem m).waitDest = s.waitDest := rfl
@[simp] theorem State.setMem_font (s : State) (m : Memory) : (s.setMem m).font = s.font := rfl
@[simp] theorem State.setMem_agenda (s : State) (m : Memory) : (s.setMem m).agenda = s.agenda := rfl
@[simp] theorem State.setMem_schedule (s : State) (m : Memory) : (s.setMem m).schedule = s.schedule := rfl
@[simp] theorem State.setMem_draws (s : State) (m : Memory) : (s.setMem m).draws = s.draws := rfl

/-! `State.setV` -/

@[simp] theorem State.setV_mem (s : State) (w : Vector Byte 16) : (s.setV w).mem = s.mem := rfl
@[simp] theorem State.setV_pc (s : State) (w : Vector Byte 16) : (s.setV w).pc = s.pc := rfl
@[simp] theorem State.setV_index (s : State) (w : Vector Byte 16) : (s.setV w).index = s.index := rfl
@[simp] theorem State.setV_stack (s : State) (w : Vector Byte 16) : (s.setV w).stack = s.stack := rfl
@[simp] theorem State.setV_sp (s : State) (w : Vector Byte 16) : (s.setV w).sp = s.sp := rfl
@[simp] theorem State.setV_dt (s : State) (w : Vector Byte 16) : (s.setV w).dt = s.dt := rfl
@[simp] theorem State.setV_st (s : State) (w : Vector Byte 16) : (s.setV w).st = s.st := rfl
@[simp] theorem State.setV_fb (s : State) (w : Vector Byte 16) : (s.setV w).fb = s.fb := rfl
@[simp] theorem State.setV_waiting (s : State) (w : Vector Byte 16) : (s.setV w).waiting = s.waiting := rfl
@[simp] theorem State.setV_waitDest (s : State) (w : Vector Byte 16) : (s.setV w).waitDest = s.waitDest := rfl
@[simp] theorem State.setV_font (s : State) (w : Vector Byte 16) : (s.setV w).font = s.font := rfl
@[simp] theorem State.setV_agenda (s : State) (w : Vector Byte 16) : (s.setV w).agenda = s.agenda := rfl
@[simp] theorem State.setV_schedule (s : State) (w : Vector Byte 16) : (s.setV w).schedule = s.schedule := rfl
@[simp] theorem State.setV_draws (s : State) (w : Vector Byte 16) : (s.setV w).draws = s.draws := rfl

/-! `State.setIndex` -/

@[simp] theorem State.setIndex_mem (s : State) (w : Word) : (s.setIndex w).mem = s.mem := rfl
@[simp] theorem State.setIndex_v (s : State) (w : Word) : (s.setIndex w).v = s.v := rfl
@[simp] theorem State.setIndex_pc (s : State) (w : Word) : (s.setIndex w).pc = s.pc := rfl
@[simp] theorem State.setIndex_stack (s : State) (w : Word) : (s.setIndex w).stack = s.stack := rfl
@[simp] theorem State.setIndex_sp (s : State) (w : Word) : (s.setIndex w).sp = s.sp := rfl
@[simp] theorem State.setIndex_dt (s : State) (w : Word) : (s.setIndex w).dt = s.dt := rfl
@[simp] theorem State.setIndex_st (s : State) (w : Word) : (s.setIndex w).st = s.st := rfl
@[simp] theorem State.setIndex_fb (s : State) (w : Word) : (s.setIndex w).fb = s.fb := rfl
@[simp] theorem State.setIndex_waiting (s : State) (w : Word) : (s.setIndex w).waiting = s.waiting := rfl
@[simp] theorem State.setIndex_waitDest (s : State) (w : Word) : (s.setIndex w).waitDest = s.waitDest := rfl
@[simp] theorem State.setIndex_font (s : State) (w : Word) : (s.setIndex w).font = s.font := rfl
@[simp] theorem State.setIndex_agenda (s : State) (w : Word) : (s.setIndex w).agenda = s.agenda := rfl
@[simp] theorem State.setIndex_schedule (s : State) (w : Word) : (s.setIndex w).schedule = s.schedule := rfl
@[simp] theorem State.setIndex_draws (s : State) (w : Word) : (s.setIndex w).draws = s.draws := rfl

/-! `State.setDt` -/

@[simp] theorem State.setDt_mem (s : State) (b : Byte) : (s.setDt b).mem = s.mem := rfl
@[simp] theorem State.setDt_v (s : State) (b : Byte) : (s.setDt b).v = s.v := rfl
@[simp] theorem State.setDt_pc (s : State) (b : Byte) : (s.setDt b).pc = s.pc := rfl
@[simp] theorem State.setDt_index (s : State) (b : Byte) : (s.setDt b).index = s.index := rfl
@[simp] theorem State.setDt_stack (s : State) (b : Byte) : (s.setDt b).stack = s.stack := rfl
@[simp] theorem State.setDt_sp (s : State) (b : Byte) : (s.setDt b).sp = s.sp := rfl
@[simp] theorem State.setDt_st (s : State) (b : Byte) : (s.setDt b).st = s.st := rfl
@[simp] theorem State.setDt_fb (s : State) (b : Byte) : (s.setDt b).fb = s.fb := rfl
@[simp] theorem State.setDt_waiting (s : State) (b : Byte) : (s.setDt b).waiting = s.waiting := rfl
@[simp] theorem State.setDt_waitDest (s : State) (b : Byte) : (s.setDt b).waitDest = s.waitDest := rfl
@[simp] theorem State.setDt_font (s : State) (b : Byte) : (s.setDt b).font = s.font := rfl
@[simp] theorem State.setDt_agenda (s : State) (b : Byte) : (s.setDt b).agenda = s.agenda := rfl
@[simp] theorem State.setDt_schedule (s : State) (b : Byte) : (s.setDt b).schedule = s.schedule := rfl
@[simp] theorem State.setDt_draws (s : State) (b : Byte) : (s.setDt b).draws = s.draws := rfl

/-! `State.setSt` -/

@[simp] theorem State.setSt_mem (s : State) (b : Byte) : (s.setSt b).mem = s.mem := rfl
@[simp] theorem State.setSt_v (s : State) (b : Byte) : (s.setSt b).v = s.v := rfl
@[simp] theorem State.setSt_pc (s : State) (b : Byte) : (s.setSt b).pc = s.pc := rfl
@[simp] theorem State.setSt_index (s : State) (b : Byte) : (s.setSt b).index = s.index := rfl
@[simp] theorem State.setSt_stack (s : State) (b : Byte) : (s.setSt b).stack = s.stack := rfl
@[simp] theorem State.setSt_sp (s : State) (b : Byte) : (s.setSt b).sp = s.sp := rfl
@[simp] theorem State.setSt_dt (s : State) (b : Byte) : (s.setSt b).dt = s.dt := rfl
@[simp] theorem State.setSt_fb (s : State) (b : Byte) : (s.setSt b).fb = s.fb := rfl
@[simp] theorem State.setSt_waiting (s : State) (b : Byte) : (s.setSt b).waiting = s.waiting := rfl
@[simp] theorem State.setSt_waitDest (s : State) (b : Byte) : (s.setSt b).waitDest = s.waitDest := rfl
@[simp] theorem State.setSt_font (s : State) (b : Byte) : (s.setSt b).font = s.font := rfl
@[simp] theorem State.setSt_agenda (s : State) (b : Byte) : (s.setSt b).agenda = s.agenda := rfl
@[simp] theorem State.setSt_schedule (s : State) (b : Byte) : (s.setSt b).schedule = s.schedule := rfl
@[simp] theorem State.setSt_draws (s : State) (b : Byte) : (s.setSt b).draws = s.draws := rfl

/-! `State.setFb` -/

@[simp] theorem State.setFb_mem (s : State) (f : Frame) : (s.setFb f).mem = s.mem := rfl
@[simp] theorem State.setFb_v (s : State) (f : Frame) : (s.setFb f).v = s.v := rfl
@[simp] theorem State.setFb_pc (s : State) (f : Frame) : (s.setFb f).pc = s.pc := rfl
@[simp] theorem State.setFb_index (s : State) (f : Frame) : (s.setFb f).index = s.index := rfl
@[simp] theorem State.setFb_stack (s : State) (f : Frame) : (s.setFb f).stack = s.stack := rfl
@[simp] theorem State.setFb_sp (s : State) (f : Frame) : (s.setFb f).sp = s.sp := rfl
@[simp] theorem State.setFb_dt (s : State) (f : Frame) : (s.setFb f).dt = s.dt := rfl
@[simp] theorem State.setFb_st (s : State) (f : Frame) : (s.setFb f).st = s.st := rfl
@[simp] theorem State.setFb_waiting (s : State) (f : Frame) : (s.setFb f).waiting = s.waiting := rfl
@[simp] theorem State.setFb_waitDest (s : State) (f : Frame) : (s.setFb f).waitDest = s.waitDest := rfl
@[simp] theorem State.setFb_font (s : State) (f : Frame) : (s.setFb f).font = s.font := rfl
@[simp] theorem State.setFb_agenda (s : State) (f : Frame) : (s.setFb f).agenda = s.agenda := rfl
@[simp] theorem State.setFb_schedule (s : State) (f : Frame) : (s.setFb f).schedule = s.schedule := rfl
@[simp] theorem State.setFb_draws (s : State) (f : Frame) : (s.setFb f).draws = s.draws := rfl

/-! `State.beginWait` -/

@[simp] theorem State.beginWait_mem (s : State) (x : Nibble) : (s.beginWait x).mem = s.mem := rfl
@[simp] theorem State.beginWait_v (s : State) (x : Nibble) : (s.beginWait x).v = s.v := rfl
@[simp] theorem State.beginWait_pc (s : State) (x : Nibble) : (s.beginWait x).pc = s.pc := rfl
@[simp] theorem State.beginWait_index (s : State) (x : Nibble) : (s.beginWait x).index = s.index := rfl
@[simp] theorem State.beginWait_stack (s : State) (x : Nibble) : (s.beginWait x).stack = s.stack := rfl
@[simp] theorem State.beginWait_sp (s : State) (x : Nibble) : (s.beginWait x).sp = s.sp := rfl
@[simp] theorem State.beginWait_dt (s : State) (x : Nibble) : (s.beginWait x).dt = s.dt := rfl
@[simp] theorem State.beginWait_st (s : State) (x : Nibble) : (s.beginWait x).st = s.st := rfl
@[simp] theorem State.beginWait_fb (s : State) (x : Nibble) : (s.beginWait x).fb = s.fb := rfl
@[simp] theorem State.beginWait_font (s : State) (x : Nibble) : (s.beginWait x).font = s.font := rfl
@[simp] theorem State.beginWait_agenda (s : State) (x : Nibble) : (s.beginWait x).agenda = s.agenda := rfl
@[simp] theorem State.beginWait_schedule (s : State) (x : Nibble) : (s.beginWait x).schedule = s.schedule := rfl
@[simp] theorem State.beginWait_draws (s : State) (x : Nibble) : (s.beginWait x).draws = s.draws := rfl

/-! `State.endWait` -/

@[simp] theorem State.endWait_mem (s : State) : (s.endWait).mem = s.mem := rfl
@[simp] theorem State.endWait_v (s : State) : (s.endWait).v = s.v := rfl
@[simp] theorem State.endWait_pc (s : State) : (s.endWait).pc = s.pc := rfl
@[simp] theorem State.endWait_index (s : State) : (s.endWait).index = s.index := rfl
@[simp] theorem State.endWait_stack (s : State) : (s.endWait).stack = s.stack := rfl
@[simp] theorem State.endWait_sp (s : State) : (s.endWait).sp = s.sp := rfl
@[simp] theorem State.endWait_dt (s : State) : (s.endWait).dt = s.dt := rfl
@[simp] theorem State.endWait_st (s : State) : (s.endWait).st = s.st := rfl
@[simp] theorem State.endWait_fb (s : State) : (s.endWait).fb = s.fb := rfl
@[simp] theorem State.endWait_waitDest (s : State) : (s.endWait).waitDest = s.waitDest := rfl
@[simp] theorem State.endWait_font (s : State) : (s.endWait).font = s.font := rfl
@[simp] theorem State.endWait_agenda (s : State) : (s.endWait).agenda = s.agenda := rfl
@[simp] theorem State.endWait_schedule (s : State) : (s.endWait).schedule = s.schedule := rfl
@[simp] theorem State.endWait_draws (s : State) : (s.endWait).draws = s.draws := rfl

/-! `State.advance` -/

@[simp] theorem State.advance_mem (s : State) : (s.advance).mem = s.mem := rfl
@[simp] theorem State.advance_v (s : State) : (s.advance).v = s.v := rfl
@[simp] theorem State.advance_index (s : State) : (s.advance).index = s.index := rfl
@[simp] theorem State.advance_stack (s : State) : (s.advance).stack = s.stack := rfl
@[simp] theorem State.advance_sp (s : State) : (s.advance).sp = s.sp := rfl
@[simp] theorem State.advance_dt (s : State) : (s.advance).dt = s.dt := rfl
@[simp] theorem State.advance_st (s : State) : (s.advance).st = s.st := rfl
@[simp] theorem State.advance_fb (s : State) : (s.advance).fb = s.fb := rfl
@[simp] theorem State.advance_waiting (s : State) : (s.advance).waiting = s.waiting := rfl
@[simp] theorem State.advance_waitDest (s : State) : (s.advance).waitDest = s.waitDest := rfl
@[simp] theorem State.advance_font (s : State) : (s.advance).font = s.font := rfl
@[simp] theorem State.advance_agenda (s : State) : (s.advance).agenda = s.agenda := rfl
@[simp] theorem State.advance_schedule (s : State) : (s.advance).schedule = s.schedule := rfl
@[simp] theorem State.advance_draws (s : State) : (s.advance).draws = s.draws := rfl

/-! `State.skipIf` -/

@[simp] theorem State.skipIf_mem (s : State) (c : Bool) : (s.skipIf c).mem = s.mem := rfl
@[simp] theorem State.skipIf_v (s : State) (c : Bool) : (s.skipIf c).v = s.v := rfl
@[simp] theorem State.skipIf_index (s : State) (c : Bool) : (s.skipIf c).index = s.index := rfl
@[simp] theorem State.skipIf_stack (s : State) (c : Bool) : (s.skipIf c).stack = s.stack := rfl
@[simp] theorem State.skipIf_sp (s : State) (c : Bool) : (s.skipIf c).sp = s.sp := rfl
@[simp] theorem State.skipIf_dt (s : State) (c : Bool) : (s.skipIf c).dt = s.dt := rfl
@[simp] theorem State.skipIf_st (s : State) (c : Bool) : (s.skipIf c).st = s.st := rfl
@[simp] theorem State.skipIf_fb (s : State) (c : Bool) : (s.skipIf c).fb = s.fb := rfl
@[simp] theorem State.skipIf_waiting (s : State) (c : Bool) : (s.skipIf c).waiting = s.waiting := rfl
@[simp] theorem State.skipIf_waitDest (s : State) (c : Bool) : (s.skipIf c).waitDest = s.waitDest := rfl
@[simp] theorem State.skipIf_font (s : State) (c : Bool) : (s.skipIf c).font = s.font := rfl
@[simp] theorem State.skipIf_agenda (s : State) (c : Bool) : (s.skipIf c).agenda = s.agenda := rfl
@[simp] theorem State.skipIf_schedule (s : State) (c : Bool) : (s.skipIf c).schedule = s.schedule := rfl
@[simp] theorem State.skipIf_draws (s : State) (c : Bool) : (s.skipIf c).draws = s.draws := rfl

/-! `State.jump` -/

@[simp] theorem State.jump_mem (s : State) (w : Word) : (s.jump w).mem = s.mem := rfl
@[simp] theorem State.jump_v (s : State) (w : Word) : (s.jump w).v = s.v := rfl
@[simp] theorem State.jump_index (s : State) (w : Word) : (s.jump w).index = s.index := rfl
@[simp] theorem State.jump_stack (s : State) (w : Word) : (s.jump w).stack = s.stack := rfl
@[simp] theorem State.jump_sp (s : State) (w : Word) : (s.jump w).sp = s.sp := rfl
@[simp] theorem State.jump_dt (s : State) (w : Word) : (s.jump w).dt = s.dt := rfl
@[simp] theorem State.jump_st (s : State) (w : Word) : (s.jump w).st = s.st := rfl
@[simp] theorem State.jump_fb (s : State) (w : Word) : (s.jump w).fb = s.fb := rfl
@[simp] theorem State.jump_waiting (s : State) (w : Word) : (s.jump w).waiting = s.waiting := rfl
@[simp] theorem State.jump_waitDest (s : State) (w : Word) : (s.jump w).waitDest = s.waitDest := rfl
@[simp] theorem State.jump_font (s : State) (w : Word) : (s.jump w).font = s.font := rfl
@[simp] theorem State.jump_agenda (s : State) (w : Word) : (s.jump w).agenda = s.agenda := rfl
@[simp] theorem State.jump_schedule (s : State) (w : Word) : (s.jump w).schedule = s.schedule := rfl
@[simp] theorem State.jump_draws (s : State) (w : Word) : (s.jump w).draws = s.draws := rfl

/-! `State.setFlagged` -/

@[simp] theorem State.setFlagged_mem (s : State) (f : Byte) (x : Nibble) (b : Byte) : (s.setFlagged f x b).mem = s.mem := rfl
@[simp] theorem State.setFlagged_pc (s : State) (f : Byte) (x : Nibble) (b : Byte) : (s.setFlagged f x b).pc = s.pc := rfl
@[simp] theorem State.setFlagged_index (s : State) (f : Byte) (x : Nibble) (b : Byte) : (s.setFlagged f x b).index = s.index := rfl
@[simp] theorem State.setFlagged_stack (s : State) (f : Byte) (x : Nibble) (b : Byte) : (s.setFlagged f x b).stack = s.stack := rfl
@[simp] theorem State.setFlagged_sp (s : State) (f : Byte) (x : Nibble) (b : Byte) : (s.setFlagged f x b).sp = s.sp := rfl
@[simp] theorem State.setFlagged_dt (s : State) (f : Byte) (x : Nibble) (b : Byte) : (s.setFlagged f x b).dt = s.dt := rfl
@[simp] theorem State.setFlagged_st (s : State) (f : Byte) (x : Nibble) (b : Byte) : (s.setFlagged f x b).st = s.st := rfl
@[simp] theorem State.setFlagged_fb (s : State) (f : Byte) (x : Nibble) (b : Byte) : (s.setFlagged f x b).fb = s.fb := rfl
@[simp] theorem State.setFlagged_waiting (s : State) (f : Byte) (x : Nibble) (b : Byte) : (s.setFlagged f x b).waiting = s.waiting := rfl
@[simp] theorem State.setFlagged_waitDest (s : State) (f : Byte) (x : Nibble) (b : Byte) : (s.setFlagged f x b).waitDest = s.waitDest := rfl
@[simp] theorem State.setFlagged_font (s : State) (f : Byte) (x : Nibble) (b : Byte) : (s.setFlagged f x b).font = s.font := rfl
@[simp] theorem State.setFlagged_agenda (s : State) (f : Byte) (x : Nibble) (b : Byte) : (s.setFlagged f x b).agenda = s.agenda := rfl
@[simp] theorem State.setFlagged_schedule (s : State) (f : Byte) (x : Nibble) (b : Byte) : (s.setFlagged f x b).schedule = s.schedule := rfl
@[simp] theorem State.setFlagged_draws (s : State) (f : Byte) (x : Nibble) (b : Byte) : (s.setFlagged f x b).draws = s.draws := rfl

/-! `State.tickTimers` -/

@[simp] theorem State.tickTimers_mem (s : State) : (s.tickTimers).mem = s.mem := rfl
@[simp] theorem State.tickTimers_v (s : State) : (s.tickTimers).v = s.v := rfl
@[simp] theorem State.tickTimers_pc (s : State) : (s.tickTimers).pc = s.pc := rfl
@[simp] theorem State.tickTimers_index (s : State) : (s.tickTimers).index = s.index := rfl
@[simp] theorem State.tickTimers_stack (s : State) : (s.tickTimers).stack = s.stack := rfl
@[simp] theorem State.tickTimers_sp (s : State) : (s.tickTimers).sp = s.sp := rfl
@[simp] theorem State.tickTimers_fb (s : State) : (s.tickTimers).fb = s.fb := rfl
@[simp] theorem State.tickTimers_waiting (s : State) : (s.tickTimers).waiting = s.waiting := rfl
@[simp] theorem State.tickTimers_waitDest (s : State) : (s.tickTimers).waitDest = s.waitDest := rfl
@[simp] theorem State.tickTimers_font (s : State) : (s.tickTimers).font = s.font := rfl
@[simp] theorem State.tickTimers_agenda (s : State) : (s.tickTimers).agenda = s.agenda := rfl
@[simp] theorem State.tickTimers_schedule (s : State) : (s.tickTimers).schedule = s.schedule := rfl
@[simp] theorem State.tickTimers_draws (s : State) : (s.tickTimers).draws = s.draws := rfl

/-! `State.consume` -/

@[simp] theorem State.consume_mem (s : State) : (s.consume).mem = s.mem := by unfold State.consume; split <;> rfl
@[simp] theorem State.consume_v (s : State) : (s.consume).v = s.v := by unfold State.consume; split <;> rfl
@[simp] theorem State.consume_pc (s : State) : (s.consume).pc = s.pc := by unfold State.consume; split <;> rfl
@[simp] theorem State.consume_index (s : State) : (s.consume).index = s.index := by unfold State.consume; split <;> rfl
@[simp] theorem State.consume_stack (s : State) : (s.consume).stack = s.stack := by unfold State.consume; split <;> rfl
@[simp] theorem State.consume_sp (s : State) : (s.consume).sp = s.sp := by unfold State.consume; split <;> rfl
@[simp] theorem State.consume_dt (s : State) : (s.consume).dt = s.dt := by unfold State.consume; split <;> rfl
@[simp] theorem State.consume_st (s : State) : (s.consume).st = s.st := by unfold State.consume; split <;> rfl
@[simp] theorem State.consume_fb (s : State) : (s.consume).fb = s.fb := by unfold State.consume; split <;> rfl
@[simp] theorem State.consume_waiting (s : State) : (s.consume).waiting = s.waiting := by unfold State.consume; split <;> rfl
@[simp] theorem State.consume_waitDest (s : State) : (s.consume).waitDest = s.waitDest := by unfold State.consume; split <;> rfl
@[simp] theorem State.consume_font (s : State) : (s.consume).font = s.font := by unfold State.consume; split <;> rfl
@[simp] theorem State.consume_schedule (s : State) : (s.consume).schedule = s.schedule := by unfold State.consume; split <;> rfl

/-! `State.resolveWait` -/

@[simp] theorem State.resolveWait_mem (s : State) : (s.resolveWait).mem = s.mem := by unfold State.resolveWait; split <;> [split <;> rfl; rfl]
@[simp] theorem State.resolveWait_index (s : State) : (s.resolveWait).index = s.index := by unfold State.resolveWait; split <;> [split <;> rfl; rfl]
@[simp] theorem State.resolveWait_stack (s : State) : (s.resolveWait).stack = s.stack := by unfold State.resolveWait; split <;> [split <;> rfl; rfl]
@[simp] theorem State.resolveWait_sp (s : State) : (s.resolveWait).sp = s.sp := by unfold State.resolveWait; split <;> [split <;> rfl; rfl]
@[simp] theorem State.resolveWait_dt (s : State) : (s.resolveWait).dt = s.dt := by unfold State.resolveWait; split <;> [split <;> rfl; rfl]
@[simp] theorem State.resolveWait_st (s : State) : (s.resolveWait).st = s.st := by unfold State.resolveWait; split <;> [split <;> rfl; rfl]
@[simp] theorem State.resolveWait_fb (s : State) : (s.resolveWait).fb = s.fb := by unfold State.resolveWait; split <;> [split <;> rfl; rfl]
@[simp] theorem State.resolveWait_waitDest (s : State) : (s.resolveWait).waitDest = s.waitDest := by unfold State.resolveWait; split <;> [split <;> rfl; rfl]
@[simp] theorem State.resolveWait_font (s : State) : (s.resolveWait).font = s.font := by unfold State.resolveWait; split <;> [split <;> rfl; rfl]
@[simp] theorem State.resolveWait_agenda (s : State) : (s.resolveWait).agenda = s.agenda := by unfold State.resolveWait; split <;> [split <;> rfl; rfl]
@[simp] theorem State.resolveWait_schedule (s : State) : (s.resolveWait).schedule = s.schedule := by unfold State.resolveWait; split <;> [split <;> rfl; rfl]
@[simp] theorem State.resolveWait_draws (s : State) : (s.resolveWait).draws = s.draws := by unfold State.resolveWait; split <;> [split <;> rfl; rfl]

@[simp] theorem State.advance_pc (s : State) : s.advance.pc = s.pc + 2#16 := rfl
@[simp] theorem State.skipIf_pc (s : State) (c : Bool) :
    (s.skipIf c).pc = if c then s.pc + 4#16 else s.pc + 2#16 := rfl
@[simp] theorem State.jump_pc (s : State) (w : Word) : (s.jump w).pc = w := rfl
@[simp] theorem State.setMem_mem (s : State) (m : Memory) : (s.setMem m).mem = m := rfl
@[simp] theorem State.setV_v (s : State) (w : Vector Byte 16) : (s.setV w).v = w := rfl
@[simp] theorem State.setIndex_index (s : State) (w : Word) : (s.setIndex w).index = w := rfl
@[simp] theorem State.setDt_dt (s : State) (b : Byte) : (s.setDt b).dt = b := rfl
@[simp] theorem State.setSt_st (s : State) (b : Byte) : (s.setSt b).st = b := rfl
@[simp] theorem State.setFb_fb (s : State) (f : Frame) : (s.setFb f).fb = f := rfl
@[simp] theorem State.beginWait_waiting (s : State) (x : Nibble) : (s.beginWait x).waiting = true := rfl
@[simp] theorem State.beginWait_waitDest (s : State) (x : Nibble) : (s.beginWait x).waitDest = x := rfl
@[simp] theorem State.endWait_waiting (s : State) : s.endWait.waiting = false := rfl
@[simp] theorem State.tickTimers_dt (s : State) : s.tickTimers.dt = countDown s.dt := rfl
@[simp] theorem State.tickTimers_st (s : State) : s.tickTimers.st = countDown s.st := rfl

/-! What the derived reads see of an update. A read of a register depends on `v` alone, a read of a byte on `font` and
`mem`, the inputs on the environment's fields. -/

theorem State.reg_congr (s t : State) (h : t.v = s.v) (x : Nibble) : t.reg x = s.reg x := by
  simp only [State.reg, h]

theorem State.readByte_congr (s t : State) (hf : t.font = s.font) (hm : t.mem = s.mem) (a : Nat) :
    t.readByte a = s.readByte a := by
  simp only [State.readByte, hf, hm]

theorem State.nextOp_congr (s t : State) (ha : t.agenda = s.agenda) (hs : t.schedule = s.schedule)
    (hd : t.draws = s.draws) : t.nextOp = s.nextOp := by
  simp only [State.nextOp, State.unplannedOp, State.freeInputs, ha, hs, hd]

theorem State.inputs_congr (s t : State) (ha : t.agenda = s.agenda) (hs : t.schedule = s.schedule)
    (hd : t.draws = s.draws) : t.inputs = s.inputs := by
  simp only [State.inputs, State.freeInputs, State.nextOp_congr s t ha hs hd, hd]

/-- The inputs of a `step` are those the operation carries. -/
theorem State.inputs_of_step (s : State) (inp : Inputs) (h : s.nextOp = .step inp) : s.inputs = inp := by
  simp only [State.inputs, h]

/-- A pending operation is the next one. -/
theorem State.nextOp_cons (s : State) (op : EnvOp) (rest : List EnvOp) (h : s.agenda = op :: rest) :
    s.nextOp = op := by
  simp only [State.nextOp, h]

/-- With nothing pending on a schedule of steps, the next operation is a `step` with free inputs. -/
theorem State.nextOp_steps (s : State) (ha : s.agenda = []) (hs : s.schedule = .steps) :
    s.nextOp = .step s.freeInputs := by
  simp only [State.nextOp, State.unplannedOp, ha, hs]

/-- With nothing pending on a free schedule, the next operation is any operation at all. -/
theorem State.nextOp_free (s : State) (ha : s.agenda = []) (hs : s.schedule = .free) :
    s.nextOp = Config.freeOp s.draws := by
  simp only [State.nextOp, State.unplannedOp, ha, hs]

@[simp] theorem State.readByte_setReg (s : State) (x : Nibble) (b : Byte) (k : Nat) : (s.setReg x b).readByte k = s.readByte k :=
  State.readByte_congr _ _ (by simp) (by simp) k
@[simp] theorem State.inputs_setReg (s : State) (x : Nibble) (b : Byte) : (s.setReg x b).inputs = s.inputs :=
  State.inputs_congr _ _ (by simp) (by simp) (by simp)
@[simp] theorem State.reg_setMem (s : State) (m : Memory) (r : Nibble) : (s.setMem m).reg r = s.reg r :=
  State.reg_congr _ _ (by simp) r
@[simp] theorem State.inputs_setMem (s : State) (m : Memory) : (s.setMem m).inputs = s.inputs :=
  State.inputs_congr _ _ (by simp) (by simp) (by simp)
@[simp] theorem State.readByte_setV (s : State) (w : Vector Byte 16) (k : Nat) : (s.setV w).readByte k = s.readByte k :=
  State.readByte_congr _ _ (by simp) (by simp) k
@[simp] theorem State.inputs_setV (s : State) (w : Vector Byte 16) : (s.setV w).inputs = s.inputs :=
  State.inputs_congr _ _ (by simp) (by simp) (by simp)
@[simp] theorem State.reg_setIndex (s : State) (w : Word) (r : Nibble) : (s.setIndex w).reg r = s.reg r :=
  State.reg_congr _ _ (by simp) r
@[simp] theorem State.readByte_setIndex (s : State) (w : Word) (k : Nat) : (s.setIndex w).readByte k = s.readByte k :=
  State.readByte_congr _ _ (by simp) (by simp) k
@[simp] theorem State.inputs_setIndex (s : State) (w : Word) : (s.setIndex w).inputs = s.inputs :=
  State.inputs_congr _ _ (by simp) (by simp) (by simp)
@[simp] theorem State.reg_setDt (s : State) (b : Byte) (r : Nibble) : (s.setDt b).reg r = s.reg r :=
  State.reg_congr _ _ (by simp) r
@[simp] theorem State.readByte_setDt (s : State) (b : Byte) (k : Nat) : (s.setDt b).readByte k = s.readByte k :=
  State.readByte_congr _ _ (by simp) (by simp) k
@[simp] theorem State.inputs_setDt (s : State) (b : Byte) : (s.setDt b).inputs = s.inputs :=
  State.inputs_congr _ _ (by simp) (by simp) (by simp)
@[simp] theorem State.reg_setSt (s : State) (b : Byte) (r : Nibble) : (s.setSt b).reg r = s.reg r :=
  State.reg_congr _ _ (by simp) r
@[simp] theorem State.readByte_setSt (s : State) (b : Byte) (k : Nat) : (s.setSt b).readByte k = s.readByte k :=
  State.readByte_congr _ _ (by simp) (by simp) k
@[simp] theorem State.inputs_setSt (s : State) (b : Byte) : (s.setSt b).inputs = s.inputs :=
  State.inputs_congr _ _ (by simp) (by simp) (by simp)
@[simp] theorem State.reg_setFb (s : State) (f : Frame) (r : Nibble) : (s.setFb f).reg r = s.reg r :=
  State.reg_congr _ _ (by simp) r
@[simp] theorem State.readByte_setFb (s : State) (f : Frame) (k : Nat) : (s.setFb f).readByte k = s.readByte k :=
  State.readByte_congr _ _ (by simp) (by simp) k
@[simp] theorem State.inputs_setFb (s : State) (f : Frame) : (s.setFb f).inputs = s.inputs :=
  State.inputs_congr _ _ (by simp) (by simp) (by simp)
@[simp] theorem State.reg_beginWait (s : State) (x : Nibble) (r : Nibble) : (s.beginWait x).reg r = s.reg r :=
  State.reg_congr _ _ (by simp) r
@[simp] theorem State.readByte_beginWait (s : State) (x : Nibble) (k : Nat) : (s.beginWait x).readByte k = s.readByte k :=
  State.readByte_congr _ _ (by simp) (by simp) k
@[simp] theorem State.inputs_beginWait (s : State) (x : Nibble) : (s.beginWait x).inputs = s.inputs :=
  State.inputs_congr _ _ (by simp) (by simp) (by simp)
@[simp] theorem State.reg_endWait (s : State) (r : Nibble) : (s.endWait).reg r = s.reg r :=
  State.reg_congr _ _ (by simp) r
@[simp] theorem State.readByte_endWait (s : State) (k : Nat) : (s.endWait).readByte k = s.readByte k :=
  State.readByte_congr _ _ (by simp) (by simp) k
@[simp] theorem State.inputs_endWait (s : State) : (s.endWait).inputs = s.inputs :=
  State.inputs_congr _ _ (by simp) (by simp) (by simp)
@[simp] theorem State.reg_advance (s : State) (r : Nibble) : (s.advance).reg r = s.reg r :=
  State.reg_congr _ _ (by simp) r
@[simp] theorem State.readByte_advance (s : State) (k : Nat) : (s.advance).readByte k = s.readByte k :=
  State.readByte_congr _ _ (by simp) (by simp) k
@[simp] theorem State.inputs_advance (s : State) : (s.advance).inputs = s.inputs :=
  State.inputs_congr _ _ (by simp) (by simp) (by simp)
@[simp] theorem State.reg_skipIf (s : State) (c : Bool) (r : Nibble) : (s.skipIf c).reg r = s.reg r :=
  State.reg_congr _ _ (by simp) r
@[simp] theorem State.readByte_skipIf (s : State) (c : Bool) (k : Nat) : (s.skipIf c).readByte k = s.readByte k :=
  State.readByte_congr _ _ (by simp) (by simp) k
@[simp] theorem State.inputs_skipIf (s : State) (c : Bool) : (s.skipIf c).inputs = s.inputs :=
  State.inputs_congr _ _ (by simp) (by simp) (by simp)
@[simp] theorem State.reg_jump (s : State) (w : Word) (r : Nibble) : (s.jump w).reg r = s.reg r :=
  State.reg_congr _ _ (by simp) r
@[simp] theorem State.readByte_jump (s : State) (w : Word) (k : Nat) : (s.jump w).readByte k = s.readByte k :=
  State.readByte_congr _ _ (by simp) (by simp) k
@[simp] theorem State.inputs_jump (s : State) (w : Word) : (s.jump w).inputs = s.inputs :=
  State.inputs_congr _ _ (by simp) (by simp) (by simp)
@[simp] theorem State.readByte_setFlagged (s : State) (f : Byte) (x : Nibble) (b : Byte) (k : Nat) : (s.setFlagged f x b).readByte k = s.readByte k :=
  State.readByte_congr _ _ (by simp) (by simp) k
@[simp] theorem State.inputs_setFlagged (s : State) (f : Byte) (x : Nibble) (b : Byte) : (s.setFlagged f x b).inputs = s.inputs :=
  State.inputs_congr _ _ (by simp) (by simp) (by simp)
@[simp] theorem State.reg_tickTimers (s : State) (r : Nibble) : (s.tickTimers).reg r = s.reg r :=
  State.reg_congr _ _ (by simp) r
@[simp] theorem State.readByte_tickTimers (s : State) (k : Nat) : (s.tickTimers).readByte k = s.readByte k :=
  State.readByte_congr _ _ (by simp) (by simp) k
@[simp] theorem State.inputs_tickTimers (s : State) : (s.tickTimers).inputs = s.inputs :=
  State.inputs_congr _ _ (by simp) (by simp) (by simp)
@[simp] theorem State.reg_consume (s : State) (r : Nibble) : (s.consume).reg r = s.reg r :=
  State.reg_congr _ _ (by simp) r
@[simp] theorem State.readByte_consume (s : State) (k : Nat) : (s.consume).readByte k = s.readByte k :=
  State.readByte_congr _ _ (by simp) (by simp) k
@[simp] theorem State.readByte_resolveWait (s : State) (k : Nat) : (s.resolveWait).readByte k = s.readByte k :=
  State.readByte_congr _ _ (by simp) (by simp) k
@[simp] theorem State.inputs_resolveWait (s : State) : (s.resolveWait).inputs = s.inputs :=
  State.inputs_congr _ _ (by simp) (by simp) (by simp)

/-! Registers -/

@[simp] theorem State.reg_setReg_self (s : State) (x : Nibble) (b : Byte) : (s.setReg x b).reg x = b := by
  simp [State.reg, State.setReg]

theorem State.reg_setReg (s : State) (x r : Nibble) (b : Byte) :
    (s.setReg x b).reg r = if r = x then b else s.reg r := by
  by_cases h : r = x
  · simp [h]
  · have : x.toNat ≠ r.toNat := fun e => h (BitVec.eq_of_toNat_eq e.symm)
    simp [State.reg, State.setReg, h, this]

/-- A flagged write: the result stands in `V[x]` whatever `x` is, the flag in VF unless `x` is VF (R100). -/
theorem State.reg_setFlagged (s : State) (f : Byte) (x r : Nibble) (b : Byte) :
    (s.setFlagged f x b).reg r = if r = x then b else if r = vf then f else s.reg r := by
  simp only [State.setFlagged, State.reg_setReg]

/-- What a block load leaves in slot `j`: the byte of the list that landed there, else what was there (R126). -/
theorem getElem_regsFrom (v : Vector Byte 16) (k : Nat) (bs : List Byte) (j : Nat) (hj : j < 16) :
    (regsFrom v k bs)[j] = if k ≤ j then (bs[j - k]?).getD v[j] else v[j] := by
  induction bs generalizing v k with
  | nil => simp [regsFrom]
  | cons b bs ih =>
    rw [regsFrom, ih, Vector.getElem_setIfInBounds]
    rcases Nat.lt_trichotomy k j with h | h | h
    · have e : j - k = (j - (k + 1)) + 1 := by omega
      simp [e, Nat.le_of_lt h, show k + 1 ≤ j from h, show k ≠ j by omega]
    · subst h
      simp
    · simp [show ¬ k ≤ j by omega, show ¬ k + 1 ≤ j by omega, show k ≠ j by omega]

theorem length_regBlock (v : Vector Byte 16) (x : Nibble) : (v.toList.take (x.toNat + 1)).length = x.toNat + 1 := by
  have := x.isLt
  simp
  omega

end Sys2Proof.Machine
end

