-- ==== Sys2Proof/Laws/Ops.lean ====
section
/-! SUPPORT. For each shared operation, once, everything it can do: later proofs cite these and do not unfold. -/

namespace Sys2Proof.Machine

/-! Outcomes -/

@[simp] theorem mapNext_next (f : State → State) (s : State) : mapNext f (.next s) = .next (f s) := rfl

@[simp] theorem mapNext_raise (f : State → State) (r : Fault) : mapNext f (raise r) = raise r := rfl

/-- A next state of `mapNext f r` comes from a next state of `r`. -/
theorem mapNext_eq_next (f : State → State) (r : Result) (t : State) :
    mapNext f r = .next t ↔ ∃ u, r = .next u ∧ t = f u := by
  cases r <;> simp [mapNext, eq_comm]

theorem mapNext_eq_fault (f : State → State) (r : Result) (e : Fault) : mapNext f r = .fault e ↔ r = .fault e := by
  cases r <;> simp [mapNext]

theorem mapNext_eq_refused (f : State → State) (r : Result) (e : Refusal) :
    mapNext f r = .refused e ↔ r = .refused e := by
  cases r <;> simp [mapNext]

/-! The call stack (R15) -/

/-- A push answers exactly when the depth is at most 15, and writes the slot at the old depth. -/
theorem State.push_some (s t : State) (w : Word) :
    s.push w = some t ↔
      ∃ h : s.sp.toNat < 16, t = { s with stack := s.stack.set s.sp.toNat w h, sp := s.sp + 1#5 } := by
  unfold State.push
  split_ifs with h
  · simp [h, eq_comm]
  · simp [h]

/-- A pop answers exactly when the depth is 1 to 16: the newest entry, the depth one less, the slots untouched. -/
theorem State.pop_some (s t : State) (w : Word) :
    s.pop = some (w, t) ↔
      ∃ h : 1 ≤ s.sp.toNat ∧ s.sp.toNat ≤ 16,
        w = s.stack[s.sp.toNat - 1]'(by omega) ∧ t = { s with sp := s.sp - 1#5 } := by
  unfold State.pop
  split_ifs with h
  · simp [h, eq_comm]
  · simp [h]

/-! Blocks through `I` (R36, R120) -/

theorem State.blockAtI_some (s : State) (len : Nat) (bs : List Byte) :
    s.blockAtI len = some bs ↔
      InRange s.index.toNat len ∧ bs = Memory.readFrom s.font s.mem s.index.toNat len :=
  s.readBytes_some _ _ _

theorem State.blockAtI_none (s : State) (len : Nat) : s.blockAtI len = none ↔ ¬ InRange s.index.toNat len := by
  simp [State.blockAtI, State.readBytes]

theorem State.storeAtI_some (s t : State) (bs : List Byte) :
    s.storeAtI bs = some t ↔
      InRange s.index.toNat bs.length ∧ t = s.setMem (Memory.writeFrom s.font s.mem s.index.toNat bs) :=
  s.writeBytes_some _ _ _

theorem State.storeAtI_none (s : State) (bs : List Byte) :
    s.storeAtI bs = none ↔ ¬ InRange s.index.toNat bs.length := by
  simp [State.storeAtI, State.writeBytes]

@[simp] theorem length_bcdDigits (b : Byte) : (bcdDigits b).length = 3 := rfl

@[simp] theorem State.length_regBlock (s : State) (x : Nibble) : (s.regBlock x).length = x.toNat + 1 :=
  Sys2Proof.Machine.length_regBlock s.v x

/-! Fetch (R35, R75) -/

/-- A fetch answers exactly when `pc <= 0x0FFE`: the byte at `pc` high, the byte at `pc + 1` low. -/
theorem State.fetch_some (s : State) (w : Word) :
    s.fetch = some w ↔
      s.pc.toNat ≤ 0xFFE ∧ w = wordOfBytes (s.readByte s.pc.toNat) (s.readByte (s.pc.toNat + 1)) := by
  unfold State.fetch State.readBytes
  split_ifs with h
  · have : s.pc.toNat ≤ 0xFFE := by simpa [InRange, Config.memSize] using h
    simp [Memory.readFrom, this, State.readByte, eq_comm]
  · have : ¬ s.pc.toNat ≤ 0xFFE := by simpa [InRange, Config.memSize] using h
    simp [this]

theorem State.fetch_none (s : State) : s.fetch = none ↔ 0xFFE < s.pc.toNat := by
  rw [Option.eq_none_iff_forall_ne_some]
  constructor
  · intro h
    by_contra hc
    exact h _ ((s.fetch_some _).2 ⟨Nat.le_of_not_lt hc, rfl⟩)
  · intro h w hw
    have := ((s.fetch_some w).1 hw).1
    omega

/-! The environment's operations -/

/-- `load` answers a next state exactly for an image of at most 3584 bytes, and then only `mem` may differ (R72). -/
theorem State.loadImage_next (s t : State) (image : List Byte) :
    s.loadImage image = .next t ↔
      image.length ≤ 3584 ∧ t = s.setMem (Memory.writeFrom s.font s.mem 0x200 image) := by
  unfold State.loadImage
  split_ifs with h
  · simp only [Config.maxImage] at h
    simp [raise, Nat.not_le.2 h]
  · simp only [Config.maxImage, Nat.not_lt] at h
    have hr : InRange Config.loadBase image.length := by
      simp only [InRange, Config.loadBase, Config.memSize]
      omega
    simp [s.writeBytes_eq _ _ hr, h, eq_comm]

/-- `load` of a longer image is TooLarge (R167). -/
theorem State.loadImage_tooLarge (s : State) (image : List Byte) (h : 3584 < image.length) :
    s.loadImage image = .fault .tooLarge := by
  simp [State.loadImage, raise, Config.maxImage, h]

/-- A wait resolves or holds; there is no third case (R77). -/
theorem State.resolveWait_cases (s : State) :
    (∃ k, s.inputs.keyEvent = true ∧ lowestKey s.inputs.keys = some k ∧
      s.resolveWait = (s.setReg s.waitDest (BitVec.ofNat 8 k)).endWait.advance) ∨
    ((s.inputs.keyEvent = false ∨ lowestKey s.inputs.keys = none) ∧ s.resolveWait = s) := by
  unfold State.resolveWait
  split_ifs with h
  · split
    · next k hk => exact .inl ⟨k, h, hk, rfl⟩
    · next hk => exact .inr ⟨.inr hk, rfl⟩
  · exact .inr ⟨.inl (by simpa using h), rfl⟩

/-- The lowest pressed key: down itself, every lower one up (R77). -/
theorem lowestKey_some (keys : BitVec 16) (k : Nat) :
    lowestKey keys = some k ↔ k < 16 ∧ keys.getLsbD k = true ∧ ∀ j < k, keys.getLsbD j = false := by
  unfold lowestKey
  rw [List.find?_range_eq_some]
  constructor
  · rintro ⟨h1, h2, h3⟩
    exact ⟨by simpa using h2, h1, fun j hj => by simpa using h3 j hj⟩
  · rintro ⟨h1, h2, h3⟩
    exact ⟨h2, by simpa using h1, fun j hj => by simpa using h3 j hj⟩

theorem lowestKey_none (keys : BitVec 16) : lowestKey keys = none ↔ keys = 0#16 := by
  unfold lowestKey
  rw [List.find?_eq_none]
  constructor
  · intro h
    apply BitVec.eq_of_getLsbD_eq
    intro i hi
    simpa using h i (by simpa using hi)
  · rintro rfl
    simp

end Sys2Proof.Machine
end

