-- ==== Sys2Proof/Laws/Step.lean ====
section
/-! SUPPORT. What one step can do, said once: every way it answers a next state, and the induction over runs. -/

namespace Sys2Proof.Machine

/-- The next states of a `step` in state Running: the instruction at `pc` ran. -/
theorem State.runInstruction_next (s t : State) :
    s.runInstruction = .next t ↔ ∃ w i, s.fetch = some w ∧ decodeWord w = .instr i ∧ exec i s = .next t := by
  unfold State.runInstruction
  cases hf : s.fetch with
  | none => simp [raise]
  | some w =>
    cases hd : decodeWord w with
    | unknown w' => simp [hd, raise]
    | instr i => simp [hd]

/-- Every way a step answers a next state, one for each operation of R70, two for `step` (R74). -/
theorem step_next (s t : State) (h : step s = .next t) :
    (∃ inp, s.nextOp = .step inp ∧ s.waiting = true ∧ t = s.resolveWait.consume) ∨
    (∃ inp w i u, s.nextOp = .step inp ∧ s.waiting = false ∧ s.fetch = some w ∧ decodeWord w = .instr i ∧
      exec i s = .next u ∧ t = u.consume) ∨
    (s.nextOp = .tickTimers ∧ t = s.tickTimers.consume) ∨
    (∃ image, s.nextOp = .load image ∧ image.length ≤ 3584 ∧
      t = (s.setMem (Memory.writeFrom s.font s.mem 0x200 image)).consume) ∨
    (s.nextOp = .reset ∧ t = s.resetCore.consume) := by
  obtain ⟨u, hu, rfl⟩ := (mapNext_eq_next _ _ _).1 h
  cases ho : s.nextOp with
  | step inp =>
    rw [ho] at hu
    simp only [State.apply, State.stepCore] at hu
    split_ifs at hu with hw
    · cases hu
      exact .inl ⟨inp, rfl, hw, rfl⟩
    · obtain ⟨w, i, hf, hd, he⟩ := (s.runInstruction_next u).1 hu
      exact .inr (.inl ⟨inp, w, i, u, rfl, by simpa using hw, hf, hd, he, rfl⟩)
  | tickTimers =>
    rw [ho] at hu
    cases hu
    exact .inr (.inr (.inl ⟨rfl, rfl⟩))
  | load image =>
    rw [ho] at hu
    obtain ⟨hl, rfl⟩ := (s.loadImage_next u image).1 hu
    exact .inr (.inr (.inr (.inl ⟨image, rfl, hl, rfl⟩)))
  | reset =>
    rw [ho] at hu
    cases hu
    exact .inr (.inr (.inr (.inr ⟨rfl, rfl⟩)))

/-- A run of one more operation, of any machine: the first step answers, and the run goes on from its state. -/
theorem coreRun_succ (M : Host.Core) (k : Nat) (s t : M.State) :
    M.run (k + 1) s = .next t ↔ ∃ u, M.step s = .next u ∧ M.run k u = .next t := by
  rw [Host.Core.run]
  cases M.step s <;> simp

/-- The same of this machine. -/
theorem run_succ (k : Nat) (s t : State) :
    Sys2Proof.core.run (k + 1) s = .next t ↔ ∃ u, step s = .next u ∧ Sys2Proof.core.run k u = .next t :=
  coreRun_succ Sys2Proof.core k s t

/-- The next operation of a placed state is a `step`. -/
theorem State.nextOp_place (s : State) (bs : List Byte) : ∃ inp, (s.place bs).nextOp = .step inp := by
  have key : ∀ (ops : List EnvOp) (t : State), t.agenda = dropToStep ops →
      t.schedule = scheduleFor s.schedule (dropToStep ops) → ∃ inp, t.nextOp = .step inp := by
    intro ops t ha hs
    induction ops with
    | nil => exact ⟨_, t.nextOp_steps ha hs⟩
    | cons op ops ih =>
      cases op with
      | step inp => exact ⟨inp, t.nextOp_cons _ _ ha⟩
      | tickTimers => exact ih ha hs
      | load image => exact ih ha hs
      | reset => exact ih ha hs
  exact key s.agenda (s.place bs) rfl rfl

/-- A property every step keeps holds along every run. -/
theorem run_keeps (P : State → Prop) (hstep : ∀ s t, P s → step s = .next t → P t) (k : Nat) (s t : State) (hs : P s)
    (h : Sys2Proof.core.run k s = .next t) : P t := by
  induction k generalizing s with
  | zero =>
    cases h
    exact hs
  | succ k ih =>
    obtain ⟨u, hu, hr⟩ := (run_succ k s t).1 h
    exact ih u (hstep s u hs hu) hr

end Sys2Proof.Machine
end

