-- ==== Sys2Proof/Laws/Exec.lean ====
section
/-! SUPPORT. What the instructions that can end in an error do when they answer a next state; the other meanings answer
`next` by definition. -/

namespace Sys2Proof.Machine

open Sys2Proof.Safety

theorem execRet_next (s t : State) (h : exec .ret s = .next t) :
    ∃ h : 1 ≤ s.sp.toNat ∧ s.sp.toNat ≤ 16,
      t = ({ s with sp := s.sp - 1#5 } : State).jump (s.stack[s.sp.toNat - 1]'(by omega) + 2#16) := by
  simp only [exec, execRet, State.pop] at h
  split_ifs at h with h1 h2
  · cases h
  · cases h
    exact ⟨h2, rfl⟩
  · cases h

theorem execCall_next (nnn : Addr12) (s t : State) (h : exec (.call nnn) s = .next t) :
    ∃ h : s.sp.toNat < 16,
      t = ({ s with stack := s.stack.set s.sp.toNat s.pc h, sp := s.sp + 1#5 } : State).jump (addr16 nnn) := by
  simp only [exec, execCall, State.push] at h
  split_ifs at h with h1 h2
  · cases h
  · cases h
    exact ⟨h2, rfl⟩
  · cases h

theorem execDrw_next (x y n : Nibble) (s t : State) (h : exec (.drw x y n) s = .next t) :
    ∃ rows, s.blockAtI n.toNat = some rows ∧
      t = ((s.setFb (drawRows (s.spriteCol x) (s.spriteRow y) 0 rows (s.fb, false)).1).setReg vf
        (collisionFlag (drawRows (s.spriteCol x) (s.spriteRow y) 0 rows (s.fb, false)).2)).advance := by
  simp only [exec, execDrw] at h
  split at h
  · next hr =>
    cases h
    exact ⟨_, hr, rfl⟩
  · cases h

theorem execLdB_next (x : Nibble) (s t : State) (h : exec (.ldB x) s = .next t) :
    InRange s.index.toNat 3 ∧
      t = (s.setMem (Memory.writeFrom s.font s.mem s.index.toNat (bcdDigits (s.reg x)))).advance := by
  simp only [exec, execLdB] at h
  split at h
  · next hs =>
    cases h
    obtain ⟨h1, rfl⟩ := (s.storeAtI_some _ _).1 hs
    exact ⟨h1, rfl⟩
  · cases h

theorem execStRegs_next (x : Nibble) (s t : State) (h : exec (.stRegs x) s = .next t) :
    InRange s.index.toNat (s.regBlock x).length ∧
      t = (s.setMem (Memory.writeFrom s.font s.mem s.index.toNat (s.regBlock x))).advance := by
  simp only [exec, execStRegs] at h
  split at h
  · next hs =>
    cases h
    obtain ⟨h1, rfl⟩ := (s.storeAtI_some _ _).1 hs
    exact ⟨h1, rfl⟩
  · cases h

theorem execLdRegs_next (x : Nibble) (s t : State) (h : exec (.ldRegs x) s = .next t) :
    ∃ bs, s.blockAtI (x.toNat + 1) = some bs ∧ t = (s.setV (regsFrom s.v 0 bs)).advance := by
  simp only [exec, execLdRegs] at h
  split at h
  · next hr =>
    cases h
    exact ⟨_, hr, rfl⟩
  · cases h

/-- The instruction a `step` runs is the one the core was about to run. -/
theorem aboutToRun_of_fetch {s : State} {inp : Inputs} {w : Word} {i : Instr} (ho : s.nextOp = .step inp)
    (hw : s.waiting = false) (hf : s.fetch = some w) (hd : decodeWord w = .instr i) : AboutToRun s i := by
  obtain ⟨hp, rfl⟩ := (s.fetch_some w).1 hf
  exact ⟨⟨inp, ho⟩, hw, hp, hd⟩

end Sys2Proof.Machine
end

