-- ==== Sys2Proof/Laws/Keeps.lean ====
section
/-! SUPPORT. The frame `KeepsAllBut` of each named update, once: what a meaning leaves unchanged follows from the
updates it is made of. -/

namespace Sys2Proof.Machine

open Sys2Proof.Safety

/-- Changing nothing keeps everything. -/
theorem keeps_self (T : Touched) (s : State) : KeepsAllBut T s s := by
  constructor <;> intros <;> rfl

/-- `pc` stands outside every frame, so advancing it keeps the frame. -/
theorem keeps_advance (T : Touched) (s t : State) (h : KeepsAllBut T s t) : KeepsAllBut T s t.advance := by
  obtain ⟨h1, h2, h3, h4, h5, h6, h7, h8, h9, h10, h11, h12, h13, h14⟩ := h
  constructor <;> simpa

theorem keeps_jump (T : Touched) (s t : State) (w : Word) (h : KeepsAllBut T s t) : KeepsAllBut T s (t.jump w) := by
  obtain ⟨h1, h2, h3, h4, h5, h6, h7, h8, h9, h10, h11, h12, h13, h14⟩ := h
  constructor <;> simpa

theorem keeps_skipIf (T : Touched) (s t : State) (c : Bool) (h : KeepsAllBut T s t) :
    KeepsAllBut T s (t.skipIf c) := by
  obtain ⟨h1, h2, h3, h4, h5, h6, h7, h8, h9, h10, h11, h12, h13, h14⟩ := h
  constructor <;> simpa

theorem keeps_setReg (s : State) (x : Nibble) (b : Byte) : KeepsAllBut { regs := [x] } s (s.setReg x b) := by
  constructor <;> intros <;> simp_all [State.reg_setReg]

theorem keeps_setFlagged (s : State) (flag : Byte) (x : Nibble) (b : Byte) :
    KeepsAllBut { regs := [x, 15#4] } s (s.setFlagged flag x b) := by
  constructor <;> intros <;> simp_all [State.reg_setFlagged, vf]

theorem keeps_setIndex (s : State) (w : Word) : KeepsAllBut { index := true } s (s.setIndex w) := by
  constructor <;> intros <;> simp_all

theorem keeps_setDt (s : State) (b : Byte) : KeepsAllBut { dt := true } s (s.setDt b) := by
  constructor <;> intros <;> simp_all

theorem keeps_setSt (s : State) (b : Byte) : KeepsAllBut { st := true } s (s.setSt b) := by
  constructor <;> intros <;> simp_all

theorem keeps_setFb (s : State) (f : Frame) : KeepsAllBut { fb := true } s (s.setFb f) := by
  constructor <;> intros <;> simp_all

theorem keeps_beginWait (s : State) (x : Nibble) : KeepsAllBut { wait := true } s (s.beginWait x) := by
  constructor <;> intros <;> simp_all

/-- Storing a block keeps every byte outside it. -/
theorem keeps_store (s : State) (h : Memory.wf s.font s.mem) (a : Nat) (bs : List Byte) :
    KeepsAllBut { bytes := List.range' a bs.length } s (s.setMem (Memory.writeFrom s.font s.mem a bs)) := by
  constructor <;> intros <;> try rfl
  rename_i b hb
  simp only [State.readByte, State.setMem_mem, State.setMem_font]
  rw [Memory.read_writeFrom _ _ _ h.1]
  split_ifs with h1
  · simp only [List.mem_range'_1] at hb
    rw [List.getElem?_eq_none (by omega)]
    rfl
  · rfl

/-- A stored block is read back byte by byte. -/
theorem readByte_store (s : State) (h : Memory.wf s.font s.mem) (a : Nat) (bs : List Byte) (k : Nat)
    (hk : k < bs.length) : (s.setMem (Memory.writeFrom s.font s.mem a bs)).readByte (a + k) = bs[k] := by
  simp only [State.readByte, State.setMem_mem, State.setMem_font]
  rw [Memory.read_writeFrom _ _ _ h.1]
  simp [hk]

/-- A byte that a store changed lies in the stored block. -/
theorem changed_by_store (s : State) (h : Memory.wf s.font s.mem) (base a : Nat) (bs : List Byte)
    (hc : (s.setMem (Memory.writeFrom s.font s.mem base bs)).readByte a ≠ s.readByte a) :
    base ≤ a ∧ a < base + bs.length := by
  by_contra hn
  exact hc ((keeps_store s h base bs).bytes a (by simpa [List.mem_range'_1] using hn))

/-- The block read into the registers: `V[k]` for `k` in the block, the rest as they were (R126). -/
theorem reg_setV_readFrom (s : State) (a n : Nat) (k : Nibble) :
    (s.setV (regsFrom s.v 0 (Memory.readFrom s.font s.mem a n))).reg k =
      if k.toNat < n then s.readByte (a + k.toNat) else s.reg k := by
  have hk := k.isLt
  simp only [State.reg, State.setV_v]
  rw [getElem_regsFrom]
  simp only [Nat.zero_le, if_true, Nat.sub_zero, Memory.getElem?_readFrom]
  by_cases hh : k.toNat < n
  · simp [hh, State.readByte]
  · simp [hh]

end Sys2Proof.Machine
end

