-- ==== Sys2Proof/Laws/PerInstr.lean ====
section
/-! SUPPORT. A statement about each instruction as syntax: its encoded word lies in its row of the opcode table, that
is, `word AND mask = match` with the row's mask and match of 30_encoding R55. One lemma per constructor. -/

namespace Sys2Proof.Laws.TableRow

/-- The column `mask` of R55. -/
def mask : Instr → Word
  | .cls | .ret => 0xFFFF#16
  | .sys _ | .jp _ | .call _ | .seImm _ _ | .sneImm _ _ | .ldImm _ _ | .addImm _ _ | .ldI _ | .jpV0 _ | .rnd _ _
  | .drw _ _ _ => 0xF000#16
  | .seReg _ _ | .ldReg _ _ | .orReg _ _ | .andReg _ _ | .xorReg _ _ | .addReg _ _ | .sub _ _ | .shr _ _
  | .subn _ _ | .shl _ _ | .sneReg _ _ => 0xF00F#16
  | .skp _ | .sknp _ | .ldVxDt _ | .ldVxK _ | .ldDtVx _ | .ldStVx _ | .addI _ | .ldF _ | .ldB _ | .stRegs _
  | .ldRegs _ => 0xF0FF#16

/-- The column `match` of R55. -/
def matchWord : Instr → Word
  | .cls => 0x00E0#16
  | .ret => 0x00EE#16
  | .sys _ => 0x0000#16
  | .jp _ => 0x1000#16
  | .call _ => 0x2000#16
  | .seImm _ _ => 0x3000#16
  | .sneImm _ _ => 0x4000#16
  | .seReg _ _ => 0x5000#16
  | .ldImm _ _ => 0x6000#16
  | .addImm _ _ => 0x7000#16
  | .ldReg _ _ => 0x8000#16
  | .orReg _ _ => 0x8001#16
  | .andReg _ _ => 0x8002#16
  | .xorReg _ _ => 0x8003#16
  | .addReg _ _ => 0x8004#16
  | .sub _ _ => 0x8005#16
  | .shr _ _ => 0x8006#16
  | .subn _ _ => 0x8007#16
  | .shl _ _ => 0x800E#16
  | .sneReg _ _ => 0x9000#16
  | .ldI _ => 0xA000#16
  | .jpV0 _ => 0xB000#16
  | .rnd _ _ => 0xC000#16
  | .drw _ _ _ => 0xD000#16
  | .skp _ => 0xE09E#16
  | .sknp _ => 0xE0A1#16
  | .ldVxDt _ => 0xF007#16
  | .ldVxK _ => 0xF00A#16
  | .ldDtVx _ => 0xF015#16
  | .ldStVx _ => 0xF018#16
  | .addI _ => 0xF01E#16
  | .ldF _ => 0xF029#16
  | .ldB _ => 0xF033#16
  | .stRegs _ => 0xF055#16
  | .ldRegs _ => 0xF065#16

/-- The encoded word selects the instruction's own row of the table. -/
def Statement (i : Instr) : Prop := encode i &&& mask i = matchWord i

/-- The mask 0xF000 keeps `op`. -/
theorem packNnn_and_F000 (op : Nibble) (a : Addr12) : packNnn op a &&& 0xF000#16 = packNnn op 0#12 := by
  have h : packNnn op a &&& packNnn 0xF#4 0#12 = packNnn (op &&& 0xF#4) (a &&& 0#12) := BitVec.and_append
  rwa [BitVec.and_zero, show (0xF#4 : Nibble) = BitVec.allOnes 4 from rfl, BitVec.and_allOnes] at h

/-- A masked XKK word, field by field. -/
theorem packXkk_and (op x op' x' : Nibble) (kk kk' : Byte) :
    packXkk op x kk &&& packXkk op' x' kk' = packXkk (op &&& op') (x &&& x') (kk &&& kk') := by
  have h : packXkk op x kk &&& packXkk op' x' kk' =
      (((op ++ x : BitVec 8) &&& (op' ++ x' : BitVec 8)) ++ (kk &&& kk') : BitVec 16) := BitVec.and_append
  rw [h, show ((op ++ x : BitVec 8) &&& (op' ++ x' : BitVec 8)) = ((op &&& op') ++ (x &&& x') : BitVec 8) from
    BitVec.and_append]
  rfl

/-- A masked XYN word, field by field. -/
theorem packXyn_and (op x y n op' x' y' n' : Nibble) :
    packXyn op x y n &&& packXyn op' x' y' n' = packXyn (op &&& op') (x &&& x') (y &&& y') (n &&& n') := by
  have h : packXyn op x y n &&& packXyn op' x' y' n' =
      (((op ++ x : BitVec 8) &&& (op' ++ x' : BitVec 8)) ++ ((y ++ n : BitVec 8) &&& (y' ++ n' : BitVec 8)) :
        BitVec 16) := BitVec.and_append
  rw [h, show ((op ++ x : BitVec 8) &&& (op' ++ x' : BitVec 8)) = ((op &&& op') ++ (x &&& x') : BitVec 8) from
    BitVec.and_append, show ((y ++ n : BitVec 8) &&& (y' ++ n' : BitVec 8)) = ((y &&& y') ++ (n &&& n') : BitVec 8) from
    BitVec.and_append]
  rfl

/-- The mask 0xF000 keeps `op`. -/
theorem packXkk_and_F000 (op x : Nibble) (kk : Byte) : packXkk op x kk &&& 0xF000#16 = packXkk op 0#4 0#8 := by
  have h := packXkk_and op x 0xF#4 0#4 kk 0#8
  rwa [BitVec.and_zero, BitVec.and_zero, show (0xF#4 : Nibble) = BitVec.allOnes 4 from rfl, BitVec.and_allOnes] at h

/-- The mask 0xF0FF keeps `op` and the low byte. -/
theorem packXkk_and_F0FF (op x : Nibble) (kk : Byte) : packXkk op x kk &&& 0xF0FF#16 = packXkk op 0#4 kk := by
  have h := packXkk_and op x 0xF#4 0#4 kk 0xFF#8
  rwa [BitVec.and_zero, show (0xF#4 : Nibble) = BitVec.allOnes 4 from rfl, BitVec.and_allOnes,
    show (0xFF#8 : Byte) = BitVec.allOnes 8 from rfl, BitVec.and_allOnes] at h

/-- The mask 0xF00F keeps `op` and `n`. -/
theorem packXyn_and_F00F (op x y n : Nibble) : packXyn op x y n &&& 0xF00F#16 = packXyn op 0#4 0#4 n := by
  have h := packXyn_and op x y n 0xF#4 0#4 0#4 0xF#4
  rwa [BitVec.and_zero, BitVec.and_zero, show (0xF#4 : Nibble) = BitVec.allOnes 4 from rfl, BitVec.and_allOnes,
    BitVec.and_allOnes] at h

/-- The mask 0xF000 keeps `op`. -/
theorem packXyn_and_F000 (op x y n : Nibble) : packXyn op x y n &&& 0xF000#16 = packXyn op 0#4 0#4 0#4 := by
  have h := packXyn_and op x y n 0xF#4 0#4 0#4 0#4
  rwa [BitVec.and_zero, BitVec.and_zero, BitVec.and_zero, show (0xF#4 : Nibble) = BitVec.allOnes 4 from rfl,
    BitVec.and_allOnes] at h

theorem cls : Statement .cls := rfl

theorem ret : Statement .ret := rfl

theorem sys (nnn : Addr12) : Statement (.sys nnn) := packNnn_and_F000 _ _

theorem jp (nnn : Addr12) : Statement (.jp nnn) := packNnn_and_F000 _ _

theorem call (nnn : Addr12) : Statement (.call nnn) := packNnn_and_F000 _ _

theorem ldI (nnn : Addr12) : Statement (.ldI nnn) := packNnn_and_F000 _ _

theorem jpV0 (nnn : Addr12) : Statement (.jpV0 nnn) := packNnn_and_F000 _ _

theorem seImm (x : Nibble) (kk : Byte) : Statement (.seImm x kk) := packXkk_and_F000 _ _ _

theorem sneImm (x : Nibble) (kk : Byte) : Statement (.sneImm x kk) := packXkk_and_F000 _ _ _

theorem ldImm (x : Nibble) (kk : Byte) : Statement (.ldImm x kk) := packXkk_and_F000 _ _ _

theorem addImm (x : Nibble) (kk : Byte) : Statement (.addImm x kk) := packXkk_and_F000 _ _ _

theorem rnd (x : Nibble) (kk : Byte) : Statement (.rnd x kk) := packXkk_and_F000 _ _ _

theorem seReg (x : Nibble) (y : Nibble) : Statement (.seReg x y) := packXyn_and_F00F _ _ _ _

theorem ldReg (x : Nibble) (y : Nibble) : Statement (.ldReg x y) := packXyn_and_F00F _ _ _ _

theorem orReg (x : Nibble) (y : Nibble) : Statement (.orReg x y) := packXyn_and_F00F _ _ _ _

theorem andReg (x : Nibble) (y : Nibble) : Statement (.andReg x y) := packXyn_and_F00F _ _ _ _

theorem xorReg (x : Nibble) (y : Nibble) : Statement (.xorReg x y) := packXyn_and_F00F _ _ _ _

theorem addReg (x : Nibble) (y : Nibble) : Statement (.addReg x y) := packXyn_and_F00F _ _ _ _

theorem sub (x : Nibble) (y : Nibble) : Statement (.sub x y) := packXyn_and_F00F _ _ _ _

theorem shr (x : Nibble) (y : Nibble) : Statement (.shr x y) := packXyn_and_F00F _ _ _ _

theorem subn (x : Nibble) (y : Nibble) : Statement (.subn x y) := packXyn_and_F00F _ _ _ _

theorem shl (x : Nibble) (y : Nibble) : Statement (.shl x y) := packXyn_and_F00F _ _ _ _

theorem sneReg (x : Nibble) (y : Nibble) : Statement (.sneReg x y) := packXyn_and_F00F _ _ _ _

theorem drw (x : Nibble) (y : Nibble) (n : Nibble) : Statement (.drw x y n) := packXyn_and_F000 _ _ _ _

theorem skp (x : Nibble) : Statement (.skp x) := packXkk_and_F0FF _ _ _

theorem sknp (x : Nibble) : Statement (.sknp x) := packXkk_and_F0FF _ _ _

theorem ldVxDt (x : Nibble) : Statement (.ldVxDt x) := packXkk_and_F0FF _ _ _

theorem ldVxK (x : Nibble) : Statement (.ldVxK x) := packXkk_and_F0FF _ _ _

theorem ldDtVx (x : Nibble) : Statement (.ldDtVx x) := packXkk_and_F0FF _ _ _

theorem ldStVx (x : Nibble) : Statement (.ldStVx x) := packXkk_and_F0FF _ _ _

theorem addI (x : Nibble) : Statement (.addI x) := packXkk_and_F0FF _ _ _

theorem ldF (x : Nibble) : Statement (.ldF x) := packXkk_and_F0FF _ _ _

theorem ldB (x : Nibble) : Statement (.ldB x) := packXkk_and_F0FF _ _ _

theorem stRegs (x : Nibble) : Statement (.stRegs x) := packXkk_and_F0FF _ _ _

theorem ldRegs (x : Nibble) : Statement (.ldRegs x) := packXkk_and_F0FF _ _ _

end Sys2Proof.Laws.TableRow
end

