-- ==== Sys2Proof/Tests/Slice0.lean ====
section
/-! SUPPORT. The model's own tests. Expected values are those of 95_test_vectors (the vector is named beside each test)
or worked out from a pattern of 30_encoding R55. The second half gives, for every statement with hypotheses, a state and
operands that meet them. -/

namespace Sys2Proof.Tests

open Sys2Proof.Machine Sys2Proof.Safety

/-! ## Helpers -/

/-- The reset state with the word `w` where the next step fetches it. -/
def ready (w : Word) : State := State.reset.withFetchWord 16 w.toNat

/-- `s` with these operations pending. -/
def pending (s : State) (ops : List EnvOp) : State := { s with agenda := ops }

/-- The `step` operation with these inputs. -/
def stepWith (keys : BitVec 16) (keyEvent : Bool) (rnd : Byte) : EnvOp := .step ⟨keys, keyEvent, rnd⟩

/-- The operation answers a next state that passes the check. -/
def ends (r : Result) (check : State → Bool) : Bool :=
  match r with
  | .next t => check t
  | .fault _ => false
  | .refused _ => false

/-- The operation ends with this error. -/
def fails (r : Result) (f : Fault) : Bool :=
  match r with
  | .next _ => false
  | .fault e => e == f
  | .refused _ => false

/-- All these cells (row, column) of the display have this value. -/
def shows (s : State) (value : Bool) (cells : List (Fin 32 × Fin 64)) : Bool :=
  cells.all (fun c => Frame.cell s.fb c.1 c.2 == value)

/-- The display with exactly these cells (row, column) set. -/
def frameOf (cells : List (Fin 32 × Fin 64)) : Frame :=
  cells.foldl (fun f c => f.flip c.1 c.2) Frame.clear

/-- `s` with these bytes stored from `base`. -/
def storing (s : State) (base : Nat) (bs : List Byte) : State :=
  s.setMem (Memory.writeFrom s.font s.mem base bs)

/-- Eight bytes from `base`. -/
def bytesAt (s : State) (base n : Nat) : List Byte := Memory.readFrom s.font s.mem base n

/-! ## Well-formedness: the one check refuses its ill-formed terms -/

theorem test_wf_refuses_cls_as_sys : (Instr.sys 0x0E0#12).wf = false := by decide
theorem test_wf_refuses_ret_as_sys : (Instr.sys 0x0EE#12).wf = false := by decide
theorem test_wf_accepts_other_sys : (Instr.sys 0x0E1#12).wf = true ∧ (Instr.sys 0xFFF#12).wf = true := by decide

/-! ## Decoding: one word for every row of R55, written from its pattern, and vectors 2.1 -/

/-- Rows 1 to 3: `0000 0000 1110 0000`, `0000 0000 1110 1110`, `0000 nnnn nnnn nnnn`. -/
theorem test_decode_system :
    decodeWord 0b0000000011100000#16 = .instr .cls ∧ decodeWord 0b0000000011101110#16 = .instr .ret ∧
    decodeWord 0b0000111111111111#16 = .instr (.sys 0xFFF#12) ∧ decodeWord 0x00E1#16 = .instr (.sys 0x0E1#12) ∧
    decodeWord 0x00EF#16 = .instr (.sys 0x0EF#12) := by decide

/-- Rows 4, 5, 22, 21: `op nnnnnnnnnnnn`. -/
theorem test_decode_jumps :
    decodeWord 0b0001001000101000#16 = .instr (.jp 0x228#12) ∧
    decodeWord 0b0010101010111100#16 = .instr (.call 0xABC#12) ∧
    decodeWord 0b1011001100000001#16 = .instr (.jpV0 0x301#12) ∧
    decodeWord 0b1010001011110000#16 = .instr (.ldI 0x2F0#12) := by decide

/-- Rows 6 to 8 and 20: `op xxxx kkkkkkkk`, `op xxxx yyyy 0000`. -/
theorem test_decode_skips :
    decodeWord 0b0011000111111111#16 = .instr (.seImm 0x1#4 0xFF#8) ∧
    decodeWord 0b0100101100010010#16 = .instr (.sneImm 0xB#4 0x12#8) ∧
    decodeWord 0b0101000100100000#16 = .instr (.seReg 0x1#4 0x2#4) ∧
    decodeWord 0b1001101010110000#16 = .instr (.sneReg 0xA#4 0xB#4) := by decide

/-- Rows 9, 10, 23: `op xxxx kkkkkkkk`. -/
theorem test_decode_immediates :
    decodeWord 0b0110101000101111#16 = .instr (.ldImm 0xA#4 0x2F#8) ∧
    decodeWord 0b0111000100000101#16 = .instr (.addImm 0x1#4 0x05#8) ∧
    decodeWord 0b1100001100001111#16 = .instr (.rnd 0x3#4 0x0F#8) := by decide

/-- Rows 11 to 19: `1000 xxxx yyyy n`. -/
theorem test_decode_alu :
    decodeWord 0b1000001000110000#16 = .instr (.ldReg 0x2#4 0x3#4) ∧
    decodeWord 0b1000000100100001#16 = .instr (.orReg 0x1#4 0x2#4) ∧
    decodeWord 0b1000000100100010#16 = .instr (.andReg 0x1#4 0x2#4) ∧
    decodeWord 0b1000000100100011#16 = .instr (.xorReg 0x1#4 0x2#4) ∧
    decodeWord 0b1000000100100100#16 = .instr (.addReg 0x1#4 0x2#4) ∧
    decodeWord 0b1000111100010101#16 = .instr (.sub 0xF#4 0x1#4) ∧
    decodeWord 0b1000000100000110#16 = .instr (.shr 0x1#4 0x0#4) ∧
    decodeWord 0b1000000100100111#16 = .instr (.subn 0x1#4 0x2#4) ∧
    decodeWord 0b1000000100101110#16 = .instr (.shl 0x1#4 0x2#4) := by decide

/-- Rows 24 to 30: `1101 xxxx yyyy nnnn`, `1110 xxxx` and a low byte, `1111 xxxx` and a low byte. -/
theorem test_decode_display_keys_timers :
    decodeWord 0b1101000100100101#16 = .instr (.drw 0x1#4 0x2#4 0x5#4) ∧
    decodeWord 0b1110000110011110#16 = .instr (.skp 0x1#4) ∧
    decodeWord 0b1110000110100001#16 = .instr (.sknp 0x1#4) ∧
    decodeWord 0b1111000100000111#16 = .instr (.ldVxDt 0x1#4) ∧
    decodeWord 0b1111010100001010#16 = .instr (.ldVxK 0x5#4) ∧
    decodeWord 0b1111000100010101#16 = .instr (.ldDtVx 0x1#4) ∧
    decodeWord 0b1111000100011000#16 = .instr (.ldStVx 0x1#4) := by decide

/-- Rows 31 to 35: `1111 xxxx` and a low byte. -/
theorem test_decode_index :
    decodeWord 0b1111000100011110#16 = .instr (.addI 0x1#4) ∧
    decodeWord 0b1111000100101001#16 = .instr (.ldF 0x1#4) ∧
    decodeWord 0b1111000100110011#16 = .instr (.ldB 0x1#4) ∧
    decodeWord 0b1111111101010101#16 = .instr (.stRegs 0xF#4) ∧
    decodeWord 0b1111001001100101#16 = .instr (.ldRegs 0x2#4) := by decide

/-- Vectors 2.1, the column of Unknown words. -/
theorem test_decode_rejects :
    [0x5121#16, 0x9AB1#16, 0x8128#16, 0x812D#16, 0x812F#16, 0xE19F#16, 0xE000#16, 0xE1A0#16, 0xF156#16, 0xF100#16,
      0xF1FF#16, 0xF00B#16].all (fun w => decodeWord w == .unknown w) = true := by decide

/-- The byte at the lower address is the high one (2.1, last sentence); one byte is no instruction. -/
theorem test_decode_byte_order :
    decode [0x6A#8, 0x2F#8, 0x77#8] = .instr (.ldImm 0xA#4 0x2F#8) [0x77#8] ∧ decode [0x6A#8] = .tooFewBytes ∧
    decodeTableWord 16 0x6A2F = some (.ldImm 0xA#4 0x2F#8) ∧ decodeTableWord 16 0x5121 = none := by decide

/-! ## Control transfer (vectors 2.2) -/

/-- F1 -/
theorem test_ret_pops :
    ends (exec .ret { State.reset with pc := 0x600#16, sp := 2#5, stack := (State.reset.stack.set 0 0x200#16).set 1 0x400#16 })
      (fun t => t.sp == 1#5 && t.pc == 0x402#16 && t.stack[1] == 0x400#16) = true := by decide

/-- F2 -/
theorem test_ret_underflow : fails (step (ready 0x00EE#16)) .stackUnderflow = true := by decide

/-- F4 -/
theorem test_sys_is_no_op : ends (step (ready 0x0FFF#16)) (fun t => t.pc == 0x202#16) = true := by decide

/-- F5, its second half -/
theorem test_fetch_bound : fails (step { State.reset with pc := 0xFFF#16, schedule := .steps })
    .addressOutOfRange = true := by decide

/-- F6 -/
theorem test_jp_to_itself : ends (step (ready 0x1200#16)) (fun t => t.pc == 0x200#16) = true := by decide

/-- F7 -/
theorem test_call_last_slot :
    ends (exec (.call 0xABC#12) { State.reset with pc := 0x300#16, sp := 15#5 })
      (fun t => t.stack[15] == 0x300#16 && t.sp == 16#5 && t.pc == 0xABC#16) = true := by decide

/-- F8 -/
theorem test_call_overflow : fails (exec (.call 0xABC#12) { State.reset with pc := 0x300#16, sp := 16#5 })
    .stackOverflow = true := by decide

/-- F9, F10 -/
theorem test_se_immediate :
    ends (step (ready 0x3100#16)) (fun t => t.pc == 0x204#16) = true ∧
    ends (step ((ready 0x31FF#16).setReg 1#4 0xFE#8)) (fun t => t.pc == 0x202#16) = true := by decide

/-- F11 -/
theorem test_sne_immediate : ends (step (ready 0x4100#16)) (fun t => t.pc == 0x202#16) = true := by decide

/-- F14 -/
theorem test_se_register : ends (step (((ready 0x5120#16).setReg 1#4 3#8).setReg 2#4 4#8))
    (fun t => t.pc == 0x202#16) = true := by decide

/-- F15 -/
theorem test_sne_register : ends (step (((ready 0x9120#16).setReg 1#4 3#8).setReg 2#4 4#8))
    (fun t => t.pc == 0x204#16) = true := by decide

/-- F18 -/
theorem test_jp_v0_not_masked : ends (step ((ready 0xBFFF#16).setReg 0#4 0xFF#8))
    (fun t => t.pc == 0x10FE#16) = true := by decide

/-! ## ALU (vectors 2.3) -/

/-- A1 -/
theorem test_ld_immediate : ends (step (ready 0x6A2F#16)) (fun t => t.reg 10#4 == 0x2F#8 && t.pc == 0x202#16) = true := by
  decide

/-- A2 -/
theorem test_add_immediate_no_flag : ends (step (((ready 0x7105#16).setReg 1#4 0xFE#8).setReg 15#4 0x77#8))
    (fun t => t.reg 1#4 == 0x03#8 && t.reg 15#4 == 0x77#8) = true := by decide

/-- A5 -/
theorem test_ld_register : ends (step (((ready 0x8120#16).setReg 1#4 0x01#8).setReg 2#4 0x99#8))
    (fun t => t.reg 1#4 == 0x99#8 && t.reg 2#4 == 0x99#8) = true := by decide

/-- A6 -/
theorem test_or : ends (step ((((ready 0x8121#16).setReg 1#4 0xA5#8).setReg 2#4 0x5A#8).setReg 15#4 9#8))
    (fun t => t.reg 1#4 == 0xFF#8 && t.reg 15#4 == 9#8) = true := by decide

/-- A7 -/
theorem test_and : ends (step ((((ready 0x8122#16).setReg 1#4 0xA5#8).setReg 2#4 0x0F#8).setReg 15#4 9#8))
    (fun t => t.reg 1#4 == 0x05#8 && t.reg 15#4 == 9#8) = true := by decide

/-- A8 -/
theorem test_xor : ends (step ((((ready 0x8123#16).setReg 1#4 0xA5#8).setReg 2#4 0xFF#8).setReg 15#4 9#8))
    (fun t => t.reg 1#4 == 0x5A#8 && t.reg 15#4 == 9#8) = true := by decide

/-- A12 -/
theorem test_add_255_no_carry : ends (step (((ready 0x8124#16).setReg 1#4 0x7F#8).setReg 2#4 0x80#8))
    (fun t => t.reg 1#4 == 0xFF#8 && t.reg 15#4 == 0#8) = true := by decide

/-- A14 -/
theorem test_add_to_flag : ends (step (((ready 0x8F14#16).setReg 15#4 0xF0#8).setReg 1#4 0x20#8))
    (fun t => t.reg 15#4 == 0x10#8) = true := by decide

/-- A17 -/
theorem test_sub_equal : ends (step (((ready 0x8125#16).setReg 1#4 0x10#8).setReg 2#4 0x10#8))
    (fun t => t.reg 1#4 == 0#8 && t.reg 15#4 == 1#8) = true := by decide

/-- A22 -/
theorem test_sub_flag_operand : ends (step (((ready 0x81F5#16).setReg 1#4 5#8).setReg 15#4 7#8))
    (fun t => t.reg 1#4 == 0xFE#8 && t.reg 15#4 == 0#8) = true := by decide

/-- A30 -/
theorem test_shr_ignores_y : ends (step (((ready 0x8126#16).setReg 1#4 4#8).setReg 2#4 0xFF#8))
    (fun t => t.reg 1#4 == 2#8 && t.reg 2#4 == 0xFF#8 && t.reg 15#4 == 0#8) = true := by decide

/-- A31 -/
theorem test_shr_flag : ends (step ((ready 0x8F06#16).setReg 15#4 3#8)) (fun t => t.reg 15#4 == 1#8) = true := by decide

/-- A25 -/
theorem test_subn : ends (step (((ready 0x8127#16).setReg 1#4 3#8).setReg 2#4 0x0A#8))
    (fun t => t.reg 1#4 == 7#8 && t.reg 15#4 == 1#8) = true := by decide

/-- S3 -/
theorem test_shl_keeps_bit : ends (step ((ready 0x810E#16).setReg 1#4 0xFF#8))
    (fun t => t.reg 1#4 == 0xFE#8 && t.reg 15#4 == 1#8) = true := by decide

/-- A35 -/
theorem test_shl_ignores_y : ends (step (((ready 0x812E#16).setReg 1#4 1#8).setReg 2#4 0xFF#8))
    (fun t => t.reg 1#4 == 2#8 && t.reg 15#4 == 0#8) = true := by decide

/-- A37 -/
theorem test_rnd : ends (step (pending (ready 0xC3F0#16) [stepWith 0#16 false 0xAB#8]))
    (fun t => t.reg 3#4 == 0xA0#8 && t.agenda == []) = true := by decide

/-! ## Index and memory (vectors 2.4) -/

/-- M1 -/
theorem test_ld_i : ends (step (ready 0xA2F0#16)) (fun t => t.index == 0x2F0#16) = true := by decide

/-- M3 -/
theorem test_add_i_wraps : ends (step (((ready 0xF11E#16).setIndex 0xFFFF#16).setReg 1#4 0xFF#8))
    (fun t => t.index == 0x00FE#16 && t.reg 15#4 == 0#8) = true := by decide

/-- M6 -/
theorem test_ld_f_not_masked : ends (step ((ready 0xF129#16).setReg 1#4 0xFF#8))
    (fun t => t.index == 0x4FB#16) = true := by decide

/-- M8 -/
theorem test_bcd_at_top : ends (step (((ready 0xF133#16).setIndex 0xFFD#16).setReg 1#4 123#8))
    (fun t => bytesAt t 0xFFC 4 == [0#8, 1#8, 2#8, 3#8] && t.index == 0xFFD#16) = true := by decide

/-- M9 -/
theorem test_bcd_out_of_range : fails (step (((ready 0xF133#16).setIndex 0xFFE#16).setReg 1#4 123#8))
    .addressOutOfRange = true := by decide

/-- M12 -/
theorem test_store_one : ends (step ((((ready 0xF055#16).setIndex 0xFFF#16).setReg 0#4 0x42#8).setReg 1#4 0x43#8))
    (fun t => t.readByte 0xFFF == 0x42#8 && t.readByte 0xFFE == 0#8) = true := by decide

/-- M11 -/
theorem test_store_out_of_range : fails (step ((ready 0xFF55#16).setIndex 0xFF1#16)) .addressOutOfRange = true := by
  decide

/-- M15 -/
theorem test_load_block : ends (step (((storing (ready 0xF265#16) 0x300 [1#8, 2#8, 3#8, 4#8]).setIndex 0x300#16).setReg 3#4 0x77#8))
    (fun t => [t.reg 0#4, t.reg 1#4, t.reg 2#4, t.reg 3#4] == [1#8, 2#8, 3#8, 0x77#8] && t.index == 0x300#16)
      = true := by decide

/-- M13, on the FONT of R21 -/
theorem test_load_font : ends (step (ready 0xF165#16)) (fun t => t.reg 0#4 == 0xF0#8 && t.reg 1#4 == 0x90#8) = true := by
  decide

/-! ## Display (vectors 2.5) -/

/-- D2 -/
theorem test_draw_wraps_column :
    ends (step (((storing (ready 0xD011#16) 0x300 [0xFF#8]).setIndex 0x300#16).setReg 0#4 60#8))
      (fun t => shows t true [(0, 60), (0, 63), (0, 0), (0, 3)] && shows t false [(0, 59), (0, 4), (1, 0), (31, 63)] &&
        t.reg 15#4 == 0#8) = true := by decide

/-- D12: rows are counted from the sprite's start, and a collision in the last row still counts. -/
theorem test_draw_collides :
    ends (step (((storing (ready 0xD012#16) 0x300 [0x80#8, 0x80#8]).setIndex 0x300#16).setFb (frameOf [(1, 0)])))
      (fun t => shows t true [(0, 0)] && shows t false [(1, 0), (0, 1), (2, 0)] && t.reg 15#4 == 1#8) = true := by decide

/-- D4 -/
theorem test_draw_wraps_row :
    ends (step (((storing (ready 0xD012#16) 0x300 [0x80#8, 0x80#8]).setIndex 0x300#16).setReg 1#4 31#8))
      (fun t => shows t true [(31, 0), (0, 0)] && shows t false [(30, 0), (1, 0), (31, 7)]) = true := by decide

/-- D7 -/
theorem test_draw_nothing :
    ends (step ((((ready 0xD010#16).setIndex 0xFFFF#16).setReg 15#4 7#8).setFb (frameOf [(0, 1)])))
      (fun t => shows t true [(0, 1)] && shows t false [(0, 0), (0, 2)] && t.reg 15#4 == 0#8 && t.pc == 0x202#16) = true := by decide

/-- D8 -/
theorem test_draw_out_of_range : fails (step ((ready 0xD012#16).setIndex 0xFFF#16)) .addressOutOfRange = true := by
  decide

/-- D13 -/
theorem test_cls : ends (step (((ready 0x00E0#16).setFb (frameOf [(3, 4), (31, 63)])).setReg 15#4 7#8))
    (fun t => shows t false [(3, 4), (31, 63), (0, 0)] && t.reg 15#4 == 7#8) = true := by decide

/-! ## Keys, timers and the environment's operations (vectors 2.6) -/

/-- K5 -/
theorem test_skp_low_nibble : ends (step (pending ((ready 0xE19E#16).setReg 1#4 0x13#8) [stepWith 0x0008#16 false 0#8]))
    (fun t => t.pc == 0x204#16) = true := by decide

/-- K6 -/
theorem test_sknp : ends (step (pending ((ready 0xE1A1#16).setReg 1#4 0xFF#8) [stepWith 0x8000#16 false 0#8]))
    (fun t => t.pc == 0x202#16) = true := by decide

/-- S7, step 1, with a key down and an event: the entering step looks at neither -/
theorem test_key_wait_begins : ends (step (pending (ready 0xF50A#16) [stepWith 0x0088#16 true 0#8]))
    (fun t => t.waiting && t.waitDest == 5#4 && t.pc == 0x200#16 && t.reg 5#4 == 0#8) = true := by decide

/-- S7, step 5 -/
theorem test_key_wait_ends :
    ends (step (pending (State.reset.beginWait 5#4) [stepWith 0x0088#16 true 0#8]))
      (fun t => !t.waiting && t.reg 5#4 == 3#8 && t.pc == 0x202#16) = true := by decide

/-- R142 -/
theorem test_ld_from_delay : ends (step ((ready 0xF107#16).setDt 0x2A#8)) (fun t => t.reg 1#4 == 0x2A#8) = true := by
  decide

/-- R144 -/
theorem test_ld_delay : ends (step ((ready 0xF115#16).setReg 1#4 0x2A#8))
    (fun t => t.dt == 0x2A#8 && t.st == 0#8) = true := by decide

/-- R145 -/
theorem test_ld_sound : ends (step ((ready 0xF118#16).setReg 1#4 0x2A#8))
    (fun t => t.st == 0x2A#8 && t.dt == 0#8) = true := by decide

/-- S6, the last two ticks -/
theorem test_tick_stops_at_zero :
    ends (step (pending (State.reset.setDt 1#8) [.tickTimers])) (fun t => t.dt == 0#8 && t.st == 0#8) = true ∧
    ends (step (pending State.reset [.tickTimers])) (fun t => t.dt == 0#8) = true := by decide

/-- S10's image, loaded: in order from 0x200, and nothing runs -/
theorem test_load_in_order :
    ends (step (pending State.reset [.load [0xA0#8, 0x05#8, 0xD0#8, 0x05#8]]))
      (fun t => bytesAt t 0x1FF 6 == [0#8, 0xA0#8, 0x05#8, 0xD0#8, 0x05#8, 0#8] && t.pc == 0x200#16) = true := by decide

/-- S8: one byte more than fits, and exactly what fits -/
theorem test_load_limit :
    State.reset.loadImage (List.replicate 3585 0xFF#8) = .fault .tooLarge ∧
    ∃ t, State.reset.loadImage (List.replicate 3584 0xFF#8) = .next t :=
  ⟨State.loadImage_tooLarge _ _ (by rw [List.length_replicate]; decide), _,
    (State.loadImage_next _ _ _).2 ⟨by rw [List.length_replicate], rfl⟩⟩

/-- R71, during a wait -/
theorem test_reset_operation :
    ends (step (pending ((State.reset.beginWait 5#4).setReg 3#4 9#8) [.reset, .tickTimers]))
      (fun t => !t.waiting && t.waitDest == 0#4 && t.reg 3#4 == 0#8 && t.agenda == [.tickTimers]) = true := by decide

/-- R80: from reset on, each operation in turn is a free value, so any sequence of operations can come, and it goes on
without end. -/
theorem test_schedule_is_free :
    State.reset.nextOp = Config.freeOp 0 ∧ State.reset.consume.nextOp = Config.freeOp 1 ∧
    State.reset.consume.consume.nextOp = Config.freeOp 2 := ⟨rfl, rfl, rfl⟩

/-- R80: what is pending comes first, in its order. -/
theorem test_schedule_pending_first :
    (pending State.reset [.tickTimers, .load []]).nextOp = .tickTimers ∧
    (pending State.reset [.tickTimers, .load []]).consume.nextOp = .load [] ∧
    (pending State.reset [.tickTimers, .load []]).consume.consume.nextOp = Config.freeOp 0 := ⟨rfl, rfl, rfl⟩

/-- `withFetchWord` sends a wait, a pending load and a pc out of range out of the way. -/
theorem test_placed_word_runs :
    ends (step ((pending { State.reset.beginWait 5#4 with pc := 0xFFF#16 } [.load [1#8]]).withFetchWord 16 0x6A2F))
      (fun t => t.reg 10#4 == 0x2F#8 && t.pc == 0x202#16) = true := by decide

/-! ## Witnesses: the hypotheses of every statement are met -/

/-- The hypothesis common to the statements about memory. -/
theorem witness_legal : Legal State.reset ∧ Legal (storing State.reset 0x300 [1#8]) := by
  refine ⟨⟨Memory.wf_reset, by decide⟩, by decide, by decide⟩

/-- `ready w` is about to run the instruction of `w`, with these inputs. -/
theorem witness_about_to_run (w : Word) (i : Instr) (ops : List EnvOp) (inp : Inputs) (h : decodeWord w = .instr i)
    (hm : wordAtPc (ready w) = w) : AboutToRun (pending (ready w) (.step inp :: ops)) i :=
  ⟨⟨inp, rfl⟩, rfl, Nat.le_of_ble_eq_true rfl, by
    show decodeWord (wordAtPc (ready w)) = _
    rw [hm, h]⟩

theorem witness_DecodeOfEncodeIsIdentity : (Instr.sys 0x0E1#12).wf = true ∧ (Instr.shl 0xF#4 0xF#4).wf = true := by decide

theorem witness_EncodeOfDecodeIsIdentity :
    decodeWord 0xFF65#16 = .instr (.ldRegs 0xF#4) ∧ decodeWord 0x0000#16 = .instr (.sys 0#12) := by decide

/-- One word for each row of the table of illegal words, and its verdict. -/
theorem witness_IllegalWordsAreRejected :
    decodeWord 0x500F#16 = .unknown 0x500F#16 ∧ decodeWord 0x9FF1#16 = .unknown 0x9FF1#16 ∧
    decodeWord 0x8FF8#16 = .unknown 0x8FF8#16 ∧ decodeWord 0xEF9F#16 = .unknown 0xEF9F#16 ∧
    decodeWord 0xFFFF#16 = .unknown 0xFFFF#16 := by decide

theorem witness_ResetOperationRestoresEverything :
    (pending (State.reset.beginWait 5#4) [.reset]).nextOp = .reset := rfl

/-- An instruction about to run, and an agenda of either shape to consume. -/
theorem witness_StepRunsDecodedInstruction :
    (AboutToRun (pending (ready 0x6A2F#16) [stepWith 0#16 false 0#8]) (.ldImm 0xA#4 0x2F#8) ∧
      (Instr.ldImm 0xA#4 0x2F#8).wf = true) ∧
    (pending State.reset [.tickTimers]).agenda = EnvOp.tickTimers :: [] ∧ State.reset.agenda = [] :=
  ⟨⟨witness_about_to_run _ _ _ _ (by decide) (by decide), rfl⟩, rfl, rfl⟩

/-- At the highest `pc` that can be fetched from. -/
theorem witness_PlacedWordRunsNext :
    Legal { State.reset with pc := 0xFFE#16 } ∧ decodeWord 0x6A2F#16 = .instr (.ldImm 0xA#4 0x2F#8) ∧
    ({ State.reset with pc := 0xFFE#16 } : State).pc.toNat ≤ 0xFFE :=
  ⟨witness_legal.1, by decide, by decide⟩

theorem witness_FetchBeyondMemoryFaults :
    let s := pending { State.reset with pc := 0xFFF#16 } [stepWith 0#16 false 0#8]
    s.nextOp = stepWith 0#16 false 0#8 ∧ s.waiting = false ∧ 0x0FFE < s.pc.toNat := by decide

theorem witness_UnknownWordFaults :
    let s := pending (storing { State.reset with pc := 0xFFE#16 } 0xFFE [0xFF#8, 0xFF#8]) [stepWith 0#16 false 0#8]
    s.nextOp = stepWith 0#16 false 0#8 ∧ s.waiting = false ∧ s.pc.toNat ≤ 0x0FFE ∧
      decodeWord (wordAtPc s) = .unknown 0xFFFF#16 := by decide

/-- The lowest key 0 and the lowest key 15; then each way a wait holds. -/
theorem witness_WaitResolvesOrHolds :
    let s := fun keys ev => pending (State.reset.beginWait 5#4) [stepWith keys ev 0#8]
    ((s 0xFFFF#16 true).nextOp = stepWith 0xFFFF#16 true 0#8 ∧ (s 0xFFFF#16 true).waiting = true ∧
      (0 < 16 ∧ (0xFFFF#16).getLsbD 0 = true ∧ ∀ j < 0, (0xFFFF#16).getLsbD j = false)) ∧
    ((s 0x8000#16 true).nextOp = stepWith 0x8000#16 true 0#8 ∧ (s 0x8000#16 true).waiting = true ∧
      (15 < 16 ∧ (0x8000#16).getLsbD 15 = true ∧ ∀ j < 15, (0x8000#16).getLsbD j = false)) ∧
    ((s 0xFFFF#16 false).nextOp = stepWith 0xFFFF#16 false 0#8 ∧ (s 0xFFFF#16 false).waiting = true) ∧
    ((s 0x0000#16 true).nextOp = stepWith 0x0000#16 true 0#8 ∧ (s 0x0000#16 true).waiting = true) := by decide

theorem witness_TickCountsTimersDown : (pending (State.reset.setDt 1#8) [.tickTimers]).nextOp = .tickTimers := rfl

/-- The empty image and the longest one. -/
theorem witness_LoadPlacesImage :
    let s := fun image => pending State.reset [.load image]
    (Legal (s []) ∧ (s []).nextOp = .load [] ∧ ([] : List Byte).length ≤ 3584) ∧
    (Legal (s (List.replicate 3584 0xFF#8)) ∧
      (s (List.replicate 3584 0xFF#8)).nextOp = .load (List.replicate 3584 0xFF#8) ∧
      (List.replicate 3584 0xFF#8).length ≤ 3584) :=
  ⟨⟨witness_legal.1, rfl, Nat.zero_le _⟩, witness_legal.1, rfl, by rw [List.length_replicate]⟩

theorem witness_LoadTooLargeFaults :
    (pending State.reset [.load (List.replicate 3585 0xFF#8)]).nextOp = .load (List.replicate 3585 0xFF#8) ∧
    3584 < (List.replicate 3585 0xFF#8).length :=
  ⟨rfl, by rw [List.length_replicate]; decide⟩

/-- A failing step, and the same core with other inputs. -/
theorem witness_ErrorsLeaveCoreAndRepeat :
    let s := pending (ready 0x00EE#16) [stepWith 0#16 false 0#8]
    let t := pending (ready 0x00EE#16) [stepWith 0xFFFF#16 true 9#8]
    s.nextOp = stepWith 0#16 false 0#8 ∧ step s = .fault .stackUnderflow ∧ SameCore s t ∧
      t.nextOp = stepWith 0xFFFF#16 true 9#8 :=
  ⟨rfl, rfl, rfl, rfl⟩

/-- The least and the greatest depth. -/
theorem witness_ReturnPopsNewestEntry :
    let s := fun d : BitVec 5 => ({ State.reset with sp := d } : State)
    (1 ≤ (s 1#5).sp.toNat ∧ (s 1#5).sp.toNat ≤ 16) ∧ (1 ≤ (s 16#5).sp.toNat ∧ (s 16#5).sp.toNat ≤ 16) := by decide

theorem witness_ReturnWithoutEntryFaults :
    State.reset.sp = 0#5 ∧ 16 < ({ State.reset with sp := 17#5 } : State).sp.toNat := by decide

theorem witness_MachineCallIsNoOp : (0x0E1#12) ≠ 0x0E0#12 ∧ (0x0E1#12) ≠ 0x0EE#12 := by decide

/-- The empty stack and the last free slot. -/
theorem witness_CallPushesOwnAddress :
    State.reset.sp.toNat < 16 ∧ ({ State.reset with sp := 15#5 } : State).sp.toNat < 16 := by decide

theorem witness_CallAtFullDepthFaults :
    ({ State.reset with sp := 16#5 } : State).sp = 16#5 ∧ 16 < ({ State.reset with sp := 17#5 } : State).sp.toNat := by
  decide

theorem witness_CallThenReturnRoundTrip : ({ State.reset with sp := 15#5 } : State).sp.toNat < 16 := by decide

theorem witness_SkipsCompareRegisters : (0x1#4) ≠ 0#4 ∧ (0xF#4) ≠ 0#4 := by decide

/-- The flag clause of the five ALU instructions that write VF covers every `x` but 15. -/
theorem witness_AddSetsCarry : (0xE#4) ≠ 15#4 := by decide
theorem witness_SubtractSetsNoBorrow : (0xE#4) ≠ 15#4 := by decide
theorem witness_ReverseSubtractSetsNoBorrow : (0xE#4) ≠ 15#4 := by decide
theorem witness_ShiftRightKeepsLowBit : (0xE#4) ≠ 15#4 := by decide
theorem witness_ShiftLeftKeepsHighBit : (0xE#4) ≠ 15#4 := by decide

theorem witness_RandomIsMasked :
    (pending State.reset [stepWith 0#16 false 0xAB#8]).nextOp = stepWith 0#16 false 0xAB#8 := rfl

/-- The highest `I` at which the digits fit. -/
theorem witness_BcdStoresDigits :
    Legal (State.reset.setIndex 0xFFD#16) ∧ (State.reset.setIndex 0xFFD#16).index.toNat + 2 ≤ 0xFFF :=
  ⟨witness_legal.1, by decide⟩

/-- The longest block and the shortest, each at the highest `I` at which it fits. -/
theorem witness_BlockStoreWritesEachRegister :
    (Legal (State.reset.setIndex 0xFF0#16) ∧ (State.reset.setIndex 0xFF0#16).index.toNat + (15#4).toNat ≤ 0xFFF) ∧
    (Legal (State.reset.setIndex 0xFFF#16) ∧ (State.reset.setIndex 0xFFF#16).index.toNat + (0#4).toNat ≤ 0xFFF) :=
  ⟨⟨witness_legal.1, by decide⟩, witness_legal.1, by decide⟩

theorem witness_BlockLoadReadsEachRegister :
    (State.reset.setIndex 0xFF0#16).index.toNat + (15#4).toNat ≤ 0xFFF ∧
    (State.reset.setIndex 0xFFF#16).index.toNat + (0#4).toNat ≤ 0xFFF := by decide

/-- Each bound at the first `I` beyond it and at the last within it; `n` = 0 at the highest `I`. -/
theorem witness_DataBoundsAreExact :
    fails (exec (.drw 0#4 1#4 2#4) (State.reset.setIndex 0xFFF#16)) .addressOutOfRange = true ∧
    fails (exec (.drw 0#4 1#4 1#4) (State.reset.setIndex 0xFFF#16)) .addressOutOfRange = false ∧
    fails (exec (.drw 0#4 1#4 0#4) (State.reset.setIndex 0xFFFF#16)) .addressOutOfRange = false ∧
    fails (exec (.ldB 0#4) (State.reset.setIndex 0xFFE#16)) .addressOutOfRange = true ∧
    fails (exec (.ldB 0#4) (State.reset.setIndex 0xFFD#16)) .addressOutOfRange = false ∧
    fails (exec (.stRegs 15#4) (State.reset.setIndex 0xFF1#16)) .addressOutOfRange = true ∧
    fails (exec (.stRegs 15#4) (State.reset.setIndex 0xFF0#16)) .addressOutOfRange = false ∧
    fails (exec (.ldRegs 0#4) (State.reset.setIndex 0x1000#16)) .addressOutOfRange = true ∧
    fails (exec (.ldRegs 0#4) (State.reset.setIndex 0xFFF#16)) .addressOutOfRange = false := by decide

/-- No row at the highest `I`; one row at the last byte of memory; then a draw that collides and one that does not. -/
theorem witness_DrawXorsWrappedSprite :
    ((0#4).toNat = 0 ∨ (State.reset.setIndex 0xFFFF#16).index.toNat + (0#4).toNat - 1 ≤ 0xFFF) ∧
    ((1#4).toNat = 0 ∨ (State.reset.setIndex 0xFFF#16).index.toNat + (1#4).toNat - 1 ≤ 0xFFF) ∧
    (∃ row col, Frame.cell (frameOf [(0, 0)]) row col = true ∧
      ends (exec (.drw 0#4 1#4 1#4) ((storing State.reset 0x300 [0x80#8]).setIndex 0x300#16 |>.setFb (frameOf [(0, 0)])))
        (fun t => !Frame.cell t.fb row col) = true) ∧
    ∀ row col, Frame.cell State.reset.fb row col = true → Frame.cell (frameOf [(0, 0)]) row col = true := by
  refine ⟨by decide, by decide, ⟨0, 0, by decide, by decide⟩, ?_⟩
  intro row col h
  simp [Frame.cell, State.reset] at h

/-- A sprite with a set bit, on a clear display, at the last byte of memory. -/
theorem witness_DrawTwiceRestoresDisplay :
    let s := (storing State.reset 0xFFF [0x81#8]).setIndex 0xFFF#16
    (0#4) ≠ 15#4 ∧ (1#4) ≠ 15#4 ∧ ((1#4).toNat = 0 ∨ s.index.toNat + (1#4).toNat - 1 ≤ 0xFFF) ∧
      (∀ row col, SpriteCovers s 0#4 1#4 1#4 row col → Frame.cell s.fb row col = false) ∧
      ∃ row col, SpriteCovers s 0#4 1#4 1#4 row col := by
  refine ⟨by decide, by decide, by decide, fun row col _ => ?_, 0, 7, 0, 7, by decide, by decide, by decide, by decide, by decide⟩
  simp [Frame.cell, storing, State.reset]

theorem witness_KeySkipsReadSnapshot :
    (pending State.reset [stepWith 0x8001#16 false 0#8]).nextOp = stepWith 0x8001#16 false 0#8 := rfl

/-- Each cause of an error. -/
theorem witness_ErrorsComeOnlyFromTheirCauses :
    exec .ret State.reset = .fault .stackUnderflow ∧
    exec .ret { State.reset with sp := 17#5 } = .fault .stackPointerOutOfRange ∧
    exec (.call 0#12) { State.reset with sp := 16#5 } = .fault .stackOverflow ∧
    exec (.call 0#12) { State.reset with sp := 31#5 } = .fault .stackPointerOutOfRange ∧
    exec (.ldB 0#4) (State.reset.setIndex 0xFFE#16) = .fault .addressOutOfRange := ⟨rfl, rfl, rfl, rfl, rfl⟩

/-- A key skip with the same keys, RND with the same byte, another instruction with nothing the same. -/
theorem witness_InputsAreReadOnlyWhereAllowed :
    let a : Inputs := ⟨1#16, true, 2#8⟩
    let b : Inputs := ⟨1#16, false, 3#8⟩
    let c : Inputs := ⟨4#16, false, 2#8⟩
    let ok := fun (i : Instr) (p q : Inputs) =>
      (∀ x, i = .skp x ∨ i = .sknp x → p.keys = q.keys) ∧ (∀ x kk, i = .rnd x kk → p.rnd = q.rnd)
    ok (.skp 0#4) a b ∧ ok (.rnd 0#4 0xFF#8) a c ∧ ok .cls b c := by
  intro a b c ok
  simp [a, b, c, ok]

/-- A step from a legal state: a store. -/
theorem witness_StepKeepsMemoryAndDepthLegal :
    ∃ t, Legal ((ready 0xFF55#16).setIndex 0xFF0#16) ∧ step ((ready 0xFF55#16).setIndex 0xFF0#16) = .next t :=
  ⟨_, ⟨by decide, by decide⟩, rfl⟩

/-- The highest `pc` an instruction can leave, a full call stack, and a step. -/
theorem witness_StepKeepsPcBounded :
    let s : State := { State.reset with pc := 0x10FE#16, sp := 16#5, agenda := [.tickTimers] }
    ∃ t, PcBounded s ∧ step s = .next t :=
  ⟨_, by decide, rfl⟩

theorem witness_WaitIsEnteredOnlyByKeyInstruction :
    ∃ t, step (ready 0xF50A#16) = .next t ∧ (ready 0xF50A#16).waiting = false ∧ t.waiting = true := ⟨_, rfl, rfl, rfl⟩

/-- By a key and by `reset`. -/
theorem witness_WaitIsLeftOnlyByKeyOrReset :
    (∃ t, step (pending (State.reset.beginWait 5#4) [stepWith 0x8000#16 true 0#8]) = .next t ∧ t.waiting = false) ∧
    (∃ t, step (pending (State.reset.beginWait 5#4) [.reset]) = .next t ∧ t.waiting = false) ∧
    (State.reset.beginWait 5#4).waiting = true := ⟨⟨_, rfl, rfl⟩, ⟨_, rfl, rfl⟩, rfl⟩

theorem witness_DisplayChangesOnlyByDrawing :
    ∃ t, step ((ready 0x00E0#16).setFb (frameOf [(0, 0)])) = .next t ∧ t.fb ≠ frameOf [(0, 0)] := by
  refine ⟨_, rfl, fun h => ?_⟩
  have := congrArg (fun f => Frame.cell f 0 0) h
  revert this
  decide

/-- A store of `Fx55` in its last byte, and one of `Fx33`. -/
theorem witness_MemoryChangesOnlyByStores :
    let s := ((ready 0xF155#16).setIndex 0xFFE#16).setReg 1#4 7#8
    let u := ((ready 0xF133#16).setIndex 0xFFD#16).setReg 1#4 7#8
    (Legal s ∧ ∃ t, step s = .next t ∧ t.readByte 0xFFF ≠ s.readByte 0xFFF) ∧
    (Legal u ∧ ∃ t, step u = .next t ∧ t.readByte 0xFFF ≠ u.readByte 0xFFF) :=
  ⟨⟨by decide, _, rfl, by decide⟩, by decide, _, rfl, by decide⟩

/-- Steps of each kind: one that writes a timer, a tick. -/
theorem witness_TimersFallUnlessWritten :
    (∃ t, step ((ready 0xF115#16).setReg 1#4 7#8) = .next t) ∧
    (∃ t, step (pending (State.reset.setDt 1#8) [.tickTimers]) = .next t) := ⟨⟨_, rfl⟩, _, rfl⟩

theorem witness_StackAndIndexHaveFewWriters :
    (∃ t, step (ready 0x2300#16) = .next t ∧ t.sp ≠ (ready 0x2300#16).sp) ∧
    (∃ t, step (ready 0xA2F0#16) = .next t ∧ t.index ≠ (ready 0xA2F0#16).index) :=
  ⟨⟨_, rfl, by decide⟩, _, rfl, by decide⟩

theorem witness_JumpToItselfSpins :
    let s := pending (ready 0x1200#16) ([⟨1#16, true, 2#8⟩, ⟨3#16, false, 4#8⟩].map EnvOp.step ++ [.tickTimers])
    AboutToRun s (.jp 0x200#12) ∧ (0x200#12).toNat = s.pc.toNat :=
  ⟨witness_about_to_run _ _ _ _ (by decide) (by decide), by decide⟩

theorem witness_UnansweredWaitPersists :
    let inputs : List Inputs := [⟨0xFFFF#16, false, 0#8⟩, ⟨0#16, true, 0#8⟩]
    let s := pending (State.reset.beginWait 5#4) (inputs.map EnvOp.step ++ [])
    s.waiting = true ∧ s.agenda = inputs.map EnvOp.step ++ [] ∧
      ∀ inp ∈ inputs, inp.keyEvent = false ∨ inp.keys = 0#16 := by decide

end Sys2Proof.Tests
end

section
/-! Resolution of a pending wait (40_operations R77): which of the two branches a `step` in state WaitingForKey takes,
and what each leaves unchanged. -/

namespace Sys2Proof.Machine

open Sys2Proof.Safety

/-- A `step` in state WaitingForKey resolves or holds the wait and fetches nothing (R74). -/
theorem step_of_waiting (s : State) (inp : Inputs) (ho : s.nextOp = .step inp) (hw : s.waiting = true) :
    step s = .next s.resolveWait.consume := by
  simp [step, State.transition, ho, State.apply, State.stepCore, hw]

/-- A key event with the lowest pressed key `k` resolves the wait. -/
theorem State.resolveWait_of_lowestKey (s : State) (k : Nat) (he : s.inputs.keyEvent = true)
    (hk : lowestKey s.inputs.keys = some k) :
    s.resolveWait = (s.setReg s.waitDest (BitVec.ofNat 8 k)).endWait.advance := by
  rcases s.resolveWait_cases with ⟨j, -, hj, hr⟩ | ⟨hn | hn, -⟩
  · cases hk.symm.trans hj
    exact hr
  · cases he.symm.trans hn
  · cases hk.symm.trans hn

/-- Without a key event, or with no key down, the wait holds and nothing changes. -/
theorem State.resolveWait_of_unanswered (s : State) (h : s.inputs.keyEvent = false ∨ s.inputs.keys = 0#16) :
    s.resolveWait = s := by
  rcases s.resolveWait_cases with ⟨k, he, hk, -⟩ | ⟨-, hr⟩
  · rcases h with hn | h0
    · cases he.symm.trans hn
    · cases hk.symm.trans ((lowestKey_none _).2 h0)
  · exact hr

/-- Ending a wait adds the wait's own fields to a frame and nothing else. -/
theorem keeps_endWait (T : Touched) (s t : State) (h : KeepsAllBut T s t) :
    KeepsAllBut { T with wait := true } s t.endWait :=
  { h with waiting := nofun, waitDest := nofun }

/-- A resolved wait changes the destination register and the wait, and no other item. -/
theorem keeps_setReg_endWait_advance (s : State) (x : Nibble) (b : Byte) :
    KeepsAllBut { regs := [x], wait := true } s (s.setReg x b).endWait.advance :=
  keeps_advance _ _ _ (keeps_endWait _ _ _ (keeps_setReg s x b))

/-- Settles O11: a `step` in state WaitingForKey is `resolveWait`, whose branch the key event and `lowestKey` decide. -/
theorem waitResolvesOrHolds : Obligations.WaitResolvesOrHolds := by
  refine ⟨fun s inp k ho hw he hk hdown hlow => ?resolves, fun s inp ho hw hun => ?holds⟩
  case resolves =>
    have hin : s.inputs = inp := s.inputs_of_step inp ho
    have hr := s.resolveWait_of_lowestKey k (by rw [hin, he]) (by rw [hin, lowestKey_some]; exact ⟨hk, hdown, hlow⟩)
    refine ⟨s.resolveWait, step_of_waiting s inp ho hw, ?_⟩
    rw [hr]
    refine ⟨?_, rfl, rfl, rfl, keeps_setReg_endWait_advance _ _ _⟩
    simp [Nat.mod_eq_of_lt (show k < 256 by omega)]
  case holds =>
    rw [step_of_waiting s inp ho hw, s.resolveWait_of_unanswered (by rwa [s.inputs_of_step inp ho])]

end Sys2Proof.Machine
end

section
/-! The instructions of 41_flow that only set `pc` (R92, R93, R95, R96): the decoder at their words, and the two skips
on an immediate as one conditional skip. -/

namespace Sys2Proof

/-- A word of group 0 is one of the two fixed words only if its `nnn` is theirs (R57). -/
theorem decodeWord_packNnn_zero (nnn : Addr12) (hneCls : nnn ≠ 0x0E0#12) (hneRet : nnn ≠ 0x0EE#12) :
    decodeWord (packNnn 0x0#4 nnn) = .instr (.sys nnn) := by
  have hnotCls : packNnn 0x0#4 nnn ≠ 0x00E0#16 := fun h =>
    hneCls ((nnnField_packNnn _ _).symm.trans (congrArg nnnField h))
  have hnotRet : packNnn 0x0#4 nnn ≠ 0x00EE#16 := fun h =>
    hneRet ((nnnField_packNnn _ _).symm.trans (congrArg nnnField h))
  simp [decodeWord, decode0, hnotCls, hnotRet]

theorem decodeWord_packNnn_one (nnn : Addr12) : decodeWord (packNnn 0x1#4 nnn) = .instr (.jp nnn) := by
  simp [decodeWord]

theorem decodeWord_packXkk_three (x : Nibble) (kk : Byte) :
    decodeWord (packXkk 0x3#4 x kk) = .instr (.seImm x kk) := by
  simp [decodeWord]

theorem decodeWord_packXkk_four (x : Nibble) (kk : Byte) :
    decodeWord (packXkk 0x4#4 x kk) = .instr (.sneImm x kk) := by
  simp [decodeWord]

end Sys2Proof

namespace Sys2Proof.Machine

open Sys2Proof.Safety

/-- Zero-extension keeps the value of `nnn`. -/
@[simp] theorem toNat_addr16 (nnn : Addr12) : (addr16 nnn).toNat = nnn.toNat :=
  BitVec.toNat_setWidth_of_le (by decide)

/-- A skip moves `pc` by 4 or by 2, as its condition says, and changes nothing else. -/
theorem skipIf_spec (s : State) (c : Bool) (P : Prop) [Decidable P] (h : c = true ↔ P) :
    (s.skipIf c).pc = (if P then s.pc + 4#16 else s.pc + 2#16) ∧ KeepsAllBut {} s (s.skipIf c) := by
  refine ⟨?_, keeps_skipIf _ _ _ _ (keeps_self _ s)⟩
  rw [State.skipIf_pc]
  exact if_congr h rfl rfl

/-- Settles O18: away from the two fixed words group 0 decodes to SYS, whose meaning is `State.advance` alone. -/
theorem machineCallIsNoOp : Obligations.MachineCallIsNoOp := fun nnn s =>
  ⟨decodeWord_packNnn_zero nnn, s.advance, rfl, s.advance_pc, keeps_advance _ _ _ (keeps_self _ s)⟩

/-- Settles O19: JP is `State.jump` to the zero-extended `nnn`. -/
theorem jumpSetsPc : Obligations.JumpSetsPc := fun nnn s =>
  ⟨decodeWord_packNnn_one nnn, s.jump (addr16 nnn), rfl, toNat_addr16 nnn,
    keeps_jump _ _ _ _ (keeps_self _ s)⟩

/-- Settles O23: both instructions are a conditional skip, on `V[x] = kk` and on its negation. -/
theorem skipsCompareWithImmediate : Obligations.SkipsCompareWithImmediate := fun x kk s =>
  ⟨⟨decodeWord_packXkk_three x kk, s.skipIf (s.reg x == kk), rfl, skipIf_spec s _ _ beq_iff_eq⟩,
    decodeWord_packXkk_four x kk, s.skipIf (s.reg x != kk), rfl, skipIf_spec s _ _ bne_iff_ne⟩

end Sys2Proof.Machine
end

section
/-! The instructions of 42_alu and 45_keys_timers that write one register and no flag (R101 to R106, R142): the decoder
at their words, and the one shape their meanings share. -/

namespace Sys2Proof

theorem decodeWord_packXkk_six (x : Nibble) (kk : Byte) : decodeWord (packXkk 0x6#4 x kk) = .instr (.ldImm x kk) := by
  simp [decodeWord]

theorem decodeWord_packXkk_seven (x : Nibble) (kk : Byte) :
    decodeWord (packXkk 0x7#4 x kk) = .instr (.addImm x kk) := by
  simp [decodeWord]

theorem decodeWord_packXkk_fifteen_07 (x : Nibble) : decodeWord (packXkk 0xF#4 x 0x07#8) = .instr (.ldVxDt x) := by
  simp [decodeWord, decodeF]

/-- A word whose `op` is 8 goes to the register ALU group, which `n` selects from (R53). -/
theorem decodeWord_append_eight (x y n : Nibble) :
    decodeWord (0x8#4 ++ x ++ y ++ n) = decode8 (packXyn 0x8#4 x y n) := by
  simp [append_xyn, decodeWord]

theorem decode8_packXyn_zero (x y : Nibble) : decode8 (packXyn 0x8#4 x y 0x0#4) = .instr (.ldReg x y) := by
  simp [decode8]

theorem decode8_packXyn_one (x y : Nibble) : decode8 (packXyn 0x8#4 x y 0x1#4) = .instr (.orReg x y) := by
  simp [decode8]

theorem decode8_packXyn_two (x y : Nibble) : decode8 (packXyn 0x8#4 x y 0x2#4) = .instr (.andReg x y) := by
  simp [decode8]

theorem decode8_packXyn_three (x y : Nibble) : decode8 (packXyn 0x8#4 x y 0x3#4) = .instr (.xorReg x y) := by
  simp [decode8]

end Sys2Proof

namespace Sys2Proof.Machine

open Sys2Proof.Safety

/-- An instruction whose meaning is one register write and the advance of `pc`: the register holds the byte written, and
nothing else changed. -/
theorem exec_setReg_advance {i : Instr} {s : State} {x : Nibble} {b : Byte}
    (h : exec i s = .next (s.setReg x b).advance) :
    ∃ t : State, exec i s = .next t ∧ t.reg x = b ∧ t.pc = s.pc + 2#16 ∧ KeepsAllBut { regs := [x] } s t :=
  ⟨_, h, by simp, rfl, keeps_advance _ _ _ (keeps_setReg s x b)⟩

/-- An instruction that writes `op V[x] V[y]` to `V[x]`, where `op` works bit by bit as `bitOp`. -/
theorem exec_bitwise {i : Instr} {s : State} {x y : Nibble} (op : Byte → Byte → Byte) (bitOp : Bool → Bool → Bool)
    (hop : ∀ a b k, (op a b).getLsbD k = bitOp (a.getLsbD k) (b.getLsbD k))
    (h : exec i s = .next (s.setReg x (op (s.reg x) (s.reg y))).advance) :
    ∃ t : State, exec i s = .next t ∧
      (∀ k < 8, (t.reg x).getLsbD k = bitOp ((s.reg x).getLsbD k) ((s.reg y).getLsbD k)) ∧ t.pc = s.pc + 2#16 ∧
      KeepsAllBut { regs := [x] } s t := by
  obtain ⟨t, ht, hreg, hpc, hkeeps⟩ := exec_setReg_advance h
  exact ⟨t, ht, fun k _ => hreg ▸ hop _ _ k, hpc, hkeeps⟩

/-- Settles O26: each load is one register write, of `kk`, of `V[y]`, of `dt`. -/
theorem loadsWriteRegister : Obligations.LoadsWriteRegister := fun x y kk _ =>
  ⟨⟨decodeWord_packXkk_six x kk, exec_setReg_advance rfl⟩,
    ⟨(decodeWord_append_eight x y _).trans (decode8_packXyn_zero x y), exec_setReg_advance rfl⟩,
    decodeWord_packXkk_fifteen_07 x, exec_setReg_advance rfl⟩

/-- Settles O27: the byte written is the sum of two bytes, which wraps at 256. -/
theorem addImmediateWraps : Obligations.AddImmediateWraps := by
  intro x kk s
  obtain ⟨t, ht, hreg, hpc, hkeeps⟩ :=
    exec_setReg_advance (rfl : exec (.addImm x kk) s = .next (s.setReg x (s.reg x + kk)).advance)
  exact ⟨decodeWord_packXkk_seven x kk, t, ht, hreg ▸ BitVec.toNat_add _ _, hpc, hkeeps⟩

/-- Settles O28: each of the three operations on bytes is its Boolean operation at every bit. -/
theorem logicIsBitwise : Obligations.LogicIsBitwise := fun x y _ =>
  ⟨⟨(decodeWord_append_eight x y _).trans (decode8_packXyn_one x y),
      exec_bitwise (· ||| ·) or (fun _ _ _ => BitVec.getLsbD_or) rfl⟩,
    ⟨(decodeWord_append_eight x y _).trans (decode8_packXyn_two x y),
      exec_bitwise (· &&& ·) and (fun _ _ _ => BitVec.getLsbD_and) rfl⟩,
    (decodeWord_append_eight x y _).trans (decode8_packXyn_three x y),
    exec_bitwise (· ^^^ ·) xor (fun _ _ _ => BitVec.getLsbD_xor) rfl⟩

end Sys2Proof.Machine
end

section
/-! The instructions of 43_index_memory that write `I` (R121): the decoder at the word of LD I, and the shape their
meanings share. -/

namespace Sys2Proof

theorem decodeWord_packNnn_ten (nnn : Addr12) : decodeWord (packNnn 0xA#4 nnn) = .instr (.ldI nnn) := by
  simp [decodeWord]

end Sys2Proof

namespace Sys2Proof.Machine

open Sys2Proof.Safety

/-- An instruction whose meaning is one write of `I` and the advance of `pc`: `I` holds the word written, and nothing
else changed. -/
theorem exec_setIndex_advance {i : Instr} {s : State} {w : Word} (h : exec i s = .next (s.setIndex w).advance) :
    ∃ t : State, exec i s = .next t ∧ t.index = w ∧ t.pc = s.pc + 2#16 ∧ KeepsAllBut { index := true } s t :=
  ⟨_, h, rfl, rfl, keeps_advance _ _ _ (keeps_setIndex s w)⟩

/-- Settles O35: LD I writes the zero-extended `nnn` to `I`. -/
theorem loadIndexSetsIndex : Obligations.LoadIndexSetsIndex := by
  intro nnn s
  obtain ⟨t, ht, hindex, hpc, hkeeps⟩ :=
    exec_setIndex_advance (rfl : exec (.ldI nnn) s = .next (s.setIndex (addr16 nnn)).advance)
  exact ⟨decodeWord_packNnn_ten nnn, t, ht, hindex ▸ toNat_addr16 nnn, hpc, hkeeps⟩

end Sys2Proof.Machine
end

section
/-! CLS (R131): the decoder at its word, and the shape of a meaning that replaces the display. -/

namespace Sys2Proof

theorem decodeWord_cls : decodeWord 0x00E0#16 = .instr .cls := by decide

end Sys2Proof

namespace Sys2Proof.Machine

open Sys2Proof.Safety

/-- An instruction whose meaning is a new display and the advance of `pc`: the display is the frame written, and nothing
else changed. -/
theorem exec_setFb_advance {i : Instr} {s : State} {f : Frame} (h : exec i s = .next (s.setFb f).advance) :
    ∃ t : State, exec i s = .next t ∧ t.fb = f ∧ t.pc = s.pc + 2#16 ∧ KeepsAllBut { fb := true } s t :=
  ⟨_, h, rfl, rfl, keeps_advance _ _ _ (keeps_setFb s f)⟩

/-- Settles O42: CLS replaces the display by `Frame.clear`, whose cells are all 0. -/
theorem clearDisplayClearsEveryCell : Obligations.ClearDisplayClearsEveryCell := by
  intro s
  obtain ⟨t, ht, hfb, hpc, hkeeps⟩ :=
    exec_setFb_advance (rfl : exec .cls s = .next (s.setFb Frame.clear).advance)
  exact ⟨decodeWord_cls, t, ht, fun row col => hfb ▸ Frame.cell_clear row col, hpc, hkeeps⟩

end Sys2Proof.Machine
end

section
/-! The instructions of 45_keys_timers that write a timer (R144, R145): the decoder at their words, and what each
meaning keeps. -/

namespace Sys2Proof

/-- A word whose `op` is 15 goes to group F, which `kk` selects from (R53). -/
theorem decodeWord_packXkk_fifteen (x : Nibble) (kk : Byte) :
    decodeWord (packXkk 0xF#4 x kk) = decodeF (packXkk 0xF#4 x kk) := by
  simp [decodeWord]

theorem decodeF_packXkk_15 (x : Nibble) : decodeF (packXkk 0xF#4 x 0x15#8) = .instr (.ldDtVx x) := by
  simp [decodeF]

theorem decodeF_packXkk_18 (x : Nibble) : decodeF (packXkk 0xF#4 x 0x18#8) = .instr (.ldStVx x) := by
  simp [decodeF]

end Sys2Proof

namespace Sys2Proof.Machine

open Sys2Proof.Safety

/-- Settles O47: each instruction is one timer write, of `V[x]`, and the advance of `pc`. -/
theorem timersTakeRegister : Obligations.TimersTakeRegister := fun x s =>
  ⟨⟨(decodeWord_packXkk_fifteen x _).trans (decodeF_packXkk_15 x),
      (s.setDt (s.reg x)).advance, rfl, rfl, rfl, keeps_advance _ _ _ (keeps_setDt s (s.reg x))⟩,
    (decodeWord_packXkk_fifteen x _).trans (decodeF_packXkk_18 x),
    (s.setSt (s.reg x)).advance, rfl, rfl, rfl, keeps_advance _ _ _ (keeps_setSt s (s.reg x))⟩

end Sys2Proof.Machine
end

section
/-! The verdict Unknown (30_encoding R53): whichever group of the decoder rejects a word, it carries the word itself. -/

namespace Sys2Proof

/-- Every word of group 0 is an instruction (R57). -/
theorem decode0_ne_unknown (w v : Word) : decode0 w ≠ .unknown v := by
  unfold decode0
  split_ifs <;> exact nofun

theorem decode8_unknown {w v : Word} (h : decode8 w = .unknown v) : v = w := by
  simp only [decode8] at h
  split at h <;> cases h
  rfl

theorem decodeE_unknown {w v : Word} (h : decodeE w = .unknown v) : v = w := by
  unfold decodeE at h
  split_ifs at h
  cases h
  rfl

theorem decodeF_unknown {w v : Word} (h : decodeF w = .unknown v) : v = w := by
  simp only [decodeF] at h
  split at h <;> cases h
  rfl

/-- `5xyN` and `9xyN`, which are instructions only for one value of the low digit (R56). -/
theorem guarded_unknown {c : Prop} [Decidable c] {i : Instr} {w v : Word}
    (h : (if c then .instr i else .unknown w) = Verdict.unknown v) : v = w := by
  split_ifs at h
  cases h
  rfl

/-- A rejected word is rejected by name (R53): the verdict carries the word decoded. -/
theorem decodeWord_unknown {w v : Word} (h : decodeWord w = .unknown v) : v = w := by
  simp only [decodeWord] at h
  split at h
  case h_1 => exact absurd h (decode0_ne_unknown w v)
  case h_6 => exact guarded_unknown h
  case h_9 => exact decode8_unknown h
  case h_10 => exact guarded_unknown h
  case h_15 => exact decodeE_unknown h
  case h_16 => exact decodeF_unknown h
  all_goals cases h
  rfl

end Sys2Proof
end

section
/-! The errors of the decoder and of `load` (60_exceptions R163, R167): what a step is for each of the two operations,
and that the core the environment goes on from is the one before the error (R162). -/

namespace Sys2Proof.Machine

open Sys2Proof.Safety

/-- A `step` in state Running runs the instruction at `pc` (R74). -/
theorem step_of_running {s : State} {inp : Inputs} (ho : s.nextOp = .step inp) (hw : s.waiting = false) :
    step s = mapNext State.consume s.runInstruction := by
  simp [step, State.transition, ho, State.apply, State.stepCore, hw]

/-- A `load` is `loadImage` (R72). -/
theorem step_of_load {s : State} {image : List Byte} (ho : s.nextOp = .load image) :
    step s = mapNext State.consume (s.loadImage image) := by
  simp [step, State.transition, ho, State.apply]

/-- With `pc` in memory the fetch answers the word at it (R32, R35). -/
theorem State.fetch_eq_wordAtPc {s : State} (hp : s.pc.toNat ≤ 0x0FFE) : s.fetch = some (wordAtPc s) :=
  (s.fetch_some _).2 ⟨hp, rfl⟩

/-- An illegal word ends the `step` before anything is executed (R163, R169). -/
theorem State.runInstruction_unknown {s : State} {w v : Word} (hf : s.fetch = some w)
    (hd : decodeWord w = .unknown v) : s.runInstruction = .fault (.unknownOpcode v) := by
  simp [State.runInstruction, hf, hd, raise]

/-- Going on after an error leaves every item of the core as it was (R162). -/
theorem sameCore_resume (s : State) : SameCore s s.resume := by
  unfold SameCore State.resume State.consume
  split <;> rfl

/-- Settles O10: the fetch answers the word at `pc`, the decoder rejects it by name, and `State.resume` keeps `pc`. -/
theorem unknownWordFaults : Obligations.UnknownWordFaults := by
  intro s inp v ho hw hp hd
  obtain rfl : v = wordAtPc s := decodeWord_unknown hd
  have hrun : s.runInstruction = .fault (.unknownOpcode (wordAtPc s)) :=
    State.runInstruction_unknown (State.fetch_eq_wordAtPc hp) hd
  exact ⟨(step_of_running ho hw).trans ((mapNext_eq_fault _ _ _).2 hrun), s.consume_pc⟩

/-- Settles O14: `loadImage` refuses the image before it writes, and `State.resume` keeps the core. -/
theorem loadTooLargeFaults : Obligations.LoadTooLargeFaults := by
  intro s image ho hlen
  have hload : s.loadImage image = .fault .tooLarge := s.loadImage_tooLarge image hlen
  exact ⟨(step_of_load ho).trans ((mapNext_eq_fault _ _ _).2 hload), sameCore_resume s⟩

end Sys2Proof.Machine
end

section
/-! The decoder and the encoder as inverses (30_encoding R51, R53), and the table of illegal words (R56). Each group of
the decoder is settled by the field that selects within it. -/

namespace Sys2Proof

/-- Settles O2: one case per row of the table, grouped by the field that selects the row. -/
theorem decodeOfEncodeIsIdentity : Obligations.DecodeOfEncodeIsIdentity := by
  intro i hwf
  cases i with
  | cls | ret => decide
  | sys nnn =>
    simp only [Instr.wf, Bool.and_eq_true, bne_iff_ne] at hwf
    obtain ⟨hneCls, hneRet⟩ := hwf
    exact decodeWord_packNnn_zero nnn hneCls hneRet
  | jp _ | call _ | ldI _ | jpV0 _ => simp [encode, decodeWord]
  | seImm _ _ | sneImm _ _ | ldImm _ _ | addImm _ _ | rnd _ _ => simp [encode, decodeWord]
  | seReg _ _ | sneReg _ _ | drw _ _ _ => simp [encode, decodeWord]
  | ldReg _ _ | orReg _ _ | andReg _ _ | xorReg _ _ | addReg _ _ | sub _ _ | shr _ _ | subn _ _ | shl _ _ =>
    simp [encode, decodeWord, decode8]
  | skp _ | sknp _ => simp [encode, decodeWord, decodeE]
  | ldVxDt _ | ldVxK _ | ldDtVx _ | ldStVx _ | addI _ | ldF _ | ldB _ | stRegs _ | ldRegs _ =>
    simp [encode, decodeWord, decodeF]

/-! A word is packed again from its fields once those fixed by the pattern are known. -/

theorem packNnn_of_op {w : Word} {op : Nibble} (hop : opField w = op) : packNnn op (nnnField w) = w :=
  hop ▸ packNnn_fields w

theorem packXkk_of_op {w : Word} {op : Nibble} (hop : opField w = op) : packXkk op (xField w) (kkField w) = w :=
  hop ▸ packXkk_fields w

theorem packXkk_of_op_kk {w : Word} {op : Nibble} {kk : Byte} (hop : opField w = op) (hkk : kkField w = kk) :
    packXkk op (xField w) kk = w :=
  hkk ▸ packXkk_of_op hop

theorem packXyn_of_op {w : Word} {op : Nibble} (hop : opField w = op) :
    packXyn op (xField w) (yField w) (nField w) = w :=
  hop ▸ packXyn_fields w

theorem packXyn_of_op_n {w : Word} {op n : Nibble} (hop : opField w = op) (hn : nField w = n) :
    packXyn op (xField w) (yField w) n = w :=
  hn ▸ packXyn_of_op hop

/-- A vector with the value `k` is the numeral `k`. -/
theorem eq_ofNat_of_toNat {n k : Nat} {a : BitVec n} (h : a.toNat = k) : a = BitVec.ofNat n k :=
  (BitVec.toNat_eq_nat.1 h).2

/-- `i` is well-formed and its word is `w`. -/
def IsWordOf (w : Word) (i : Instr) : Prop := i.wf = true ∧ encode i = w

theorem isWordOf_of_decode0 {w : Word} {i : Instr} (hop : opField w = 0x0#4) (h : decode0 w = .instr i) :
    IsWordOf w i := by
  have hw : packNnn 0x0#4 (nnnField w) = w := packNnn_of_op hop
  unfold decode0 at h
  split_ifs at h with hcls hret <;> cases h
  · exact ⟨rfl, hcls.symm⟩
  · exact ⟨rfl, hret.symm⟩
  · refine ⟨?_, hw⟩
    simp only [Instr.wf, Bool.and_eq_true, bne_iff_ne]
    constructor
    · intro hn
      exact hcls (hw.symm.trans (hn ▸ rfl))
    · intro hn
      exact hret (hw.symm.trans (hn ▸ rfl))

theorem isWordOf_of_decode8 {w : Word} {i : Instr} (hop : opField w = 0x8#4) (h : decode8 w = .instr i) :
    IsWordOf w i := by
  simp only [decode8] at h
  split at h <;> cases h
  all_goals
    next hn => exact ⟨rfl, packXyn_of_op_n hop (BitVec.eq_of_toNat_eq hn)⟩

theorem isWordOf_of_decodeE {w : Word} {i : Instr} (hop : opField w = 0xE#4) (h : decodeE w = .instr i) :
    IsWordOf w i := by
  unfold decodeE at h
  split_ifs at h with hskp hsknp <;> cases h
  · exact ⟨rfl, packXkk_of_op_kk hop hskp⟩
  · exact ⟨rfl, packXkk_of_op_kk hop hsknp⟩

theorem isWordOf_of_decodeF {w : Word} {i : Instr} (hop : opField w = 0xF#4) (h : decodeF w = .instr i) :
    IsWordOf w i := by
  simp only [decodeF] at h
  split at h <;> cases h
  all_goals
    next hkk => exact ⟨rfl, packXkk_of_op_kk hop (BitVec.eq_of_toNat_eq hkk)⟩

/-- `5xyN` and `9xyN` decode only for the one value of the low digit. -/
theorem guarded_instr {c : Prop} [Decidable c] {i j : Instr} {w : Word}
    (h : (if c then .instr i else .unknown w) = Verdict.instr j) : c ∧ j = i := by
  split_ifs at h with hc
  cases h
  exact ⟨hc, rfl⟩

/-- Settles O3: the group fixes `op`, the group's own selector the rest, and a word is packed from its fields. The case
`h_k` is the arm of `decodeWord` for `op` = `k - 1`. -/
theorem encodeOfDecodeIsIdentity : Obligations.EncodeOfDecodeIsIdentity := by
  intro w i h
  simp only [decodeWord] at h
  split at h
  case h_1 hop => exact isWordOf_of_decode0 (eq_ofNat_of_toNat hop) h
  case h_9 hop => exact isWordOf_of_decode8 (eq_ofNat_of_toNat hop) h
  case h_15 hop => exact isWordOf_of_decodeE (eq_ofNat_of_toNat hop) h
  case h_16 hop => exact isWordOf_of_decodeF (eq_ofNat_of_toNat hop) h
  case h_6 hop | h_10 hop =>
    obtain ⟨hn, rfl⟩ := guarded_instr h
    exact ⟨rfl, packXyn_of_op_n (eq_ofNat_of_toNat hop) hn⟩
  case h_17 => cases h
  all_goals cases h
  case h_2 hop | h_3 hop | h_11 hop | h_12 hop => exact ⟨rfl, packNnn_of_op (eq_ofNat_of_toNat hop)⟩
  case h_4 hop | h_5 hop | h_7 hop | h_8 hop | h_13 hop => exact ⟨rfl, packXkk_of_op (eq_ofNat_of_toNat hop)⟩
  case h_14 hop => exact ⟨rfl, packXyn_of_op (eq_ofNat_of_toNat hop)⟩

/-! The words each group rejects (R56) -/

theorem decode8_eq_unknown (w : Word) :
    decode8 w = .unknown w ↔ nField w ∈ [0x8#4, 0x9#4, 0xA#4, 0xB#4, 0xC#4, 0xD#4, 0xF#4] := by
  simp only [decode8]
  split
  case h_10 =>
    have := (nField w).isLt
    simp only [imp_false] at *
    simp only [List.mem_cons, List.not_mem_nil, ← BitVec.toNat_inj, BitVec.toNat_ofNat, or_false,
      true_iff]
    omega
  all_goals
    next hn => simp [eq_ofNat_of_toNat hn]

theorem decodeE_eq_unknown (w : Word) : decodeE w = .unknown w ↔ kkField w ∉ [0x9E#8, 0xA1#8] := by
  unfold decodeE
  split_ifs <;> simp_all

theorem decodeF_eq_unknown (w : Word) :
    decodeF w = .unknown w ↔
      kkField w ∉ [0x07#8, 0x0A#8, 0x15#8, 0x18#8, 0x1E#8, 0x29#8, 0x33#8, 0x55#8, 0x65#8] := by
  simp only [decodeF]
  split
  case h_10 =>
    simp only [imp_false] at *
    simp only [List.mem_cons, List.not_mem_nil, ← BitVec.toNat_inj, BitVec.toNat_ofNat, or_false,
      true_iff]
    omega
  all_goals
    next hkk => simp [eq_ofNat_of_toNat hkk]

/-- Settles O4: the group is chosen by `op`, and within it the lemma of the group says which words it rejects. -/
theorem illegalWordsAreRejected : Obligations.IllegalWordsAreRejected := by
  intro w
  refine ⟨fun v hv => decodeWord_unknown hv, ?_⟩
  have hop : w.extractLsb' 12 4 = opField w := rfl
  have hn : w.extractLsb' 0 4 = nField w := rfl
  have hkk : w.extractLsb' 0 8 = kkField w := rfl
  rw [hop, hn, hkk, ← decode8_eq_unknown, ← decodeE_eq_unknown, ← decodeF_eq_unknown]
  simp only [decodeWord]
  split
  case h_17 =>
    have := (opField w).isLt
    simp only [imp_false] at *
    omega
  all_goals
    next hopNat => simp [eq_ofNat_of_toNat hopNat, decode0_ne_unknown]

/-- Settles O1: the decoder evaluated at the fifteen words. -/
theorem sampleWordsDecode : Obligations.SampleWordsDecode := by
  unfold Obligations.SampleWordsDecode
  decide

end Sys2Proof
end

section
/-! What each instruction may change, as one table, and the proof that its meaning changes nothing else. The statements
of the whole machine, and the frames of the single instructions, are read off it. -/

namespace Sys2Proof.Machine

open Sys2Proof.Safety

/-! A store leaves the bytes outside it alone in every state: the statements of the whole machine do not all suppose the
canonical form, so the frame of a store may not either. -/

theorem Memory.find_put_of_ne {a b : Nat} (hne : b ≠ a) (x : Byte) (m : Memory) :
    Memory.find b (Memory.put a x m) = Memory.find b m := by
  induction m with
  | nil => simp [Memory.put, Memory.find, hne.symm]
  | cons c m ih =>
    obtain ⟨k, y⟩ := c
    rw [Memory.put]
    split_ifs with hlt heq
    · simp [Memory.find, hne.symm]
    · subst heq
      simp [Memory.find, hne.symm]
    · simp [Memory.find, ih]

theorem Memory.find_drop_of_ne {a b : Nat} (hne : b ≠ a) (m : Memory) :
    Memory.find b (Memory.drop a m) = Memory.find b m := by
  induction m with
  | nil => rfl
  | cons c m ih =>
    obtain ⟨k, y⟩ := c
    rw [Memory.drop]
    split_ifs with heq
    · subst heq
      simp [Memory.find, hne.symm]
    · simp [Memory.find, ih]

theorem Memory.read_write_of_ne (font : Vector Byte 80) (m : Memory) {a b : Nat} (hne : b ≠ a) (x : Byte) :
    Memory.read font (Memory.write font m a x) b = Memory.read font m b := by
  unfold Memory.write Memory.read
  split_ifs
  · rw [Memory.find_drop_of_ne hne]
  · rw [Memory.find_put_of_ne hne]

theorem Memory.read_writeFrom_outside (font : Vector Byte 80) (bs : List Byte) (m : Memory) (a b : Nat)
    (hb : b ∉ List.range' a bs.length) :
    Memory.read font (Memory.writeFrom font m a bs) b = Memory.read font m b := by
  induction bs generalizing m a with
  | nil => rfl
  | cons x bs ih =>
    simp only [List.length_cons, List.range'_succ, List.mem_cons, not_or] at hb
    obtain ⟨hne, hb⟩ := hb
    rw [Memory.writeFrom, ih _ _ hb, Memory.read_write_of_ne _ _ hne]

theorem keeps_writeFrom (s : State) (a : Nat) (bs : List Byte) :
    KeepsAllBut { bytes := List.range' a bs.length } s (s.setMem (Memory.writeFrom s.font s.mem a bs)) :=
  { keeps_self { bytes := List.range' a bs.length } s with
    bytes := fun b hb => Memory.read_writeFrom_outside s.font bs s.mem a b hb }

/-- A register write after other updates adds the register to their frame. -/
theorem keeps_setReg_after {T : Touched} {s t : State} (h : KeepsAllBut T s t) (x : Nibble) (b : Byte) :
    KeepsAllBut { T with regs := x :: T.regs } s (t.setReg x b) :=
  { h with
    regs := fun r hr => by
      obtain ⟨hne, hr⟩ := not_or.1 (mt List.mem_cons.2 hr)
      rw [State.reg_setReg, if_neg hne, h.regs r hr] }

/-- Frames compose: what two runs in a row both leave, the two together leave. -/
theorem keeps_trans {T : Touched} {s t u : State} (hst : KeepsAllBut T s t) (htu : KeepsAllBut T t u) :
    KeepsAllBut T s u where
  regs r hr := (htu.regs r hr).trans (hst.regs r hr)
  bytes a ha := (htu.bytes a ha).trans (hst.bytes a ha)
  slots k hk := (htu.slots k hk).trans (hst.slots k hk)
  index h := (htu.index h).trans (hst.index h)
  sp h := (htu.sp h).trans (hst.sp h)
  dt h := (htu.dt h).trans (hst.dt h)
  st h := (htu.st h).trans (hst.st h)
  fb h := (htu.fb h).trans (hst.fb h)
  waiting h := (htu.waiting h).trans (hst.waiting h)
  waitDest h := (htu.waitDest h).trans (hst.waitDest h)
  font := htu.font.trans hst.font
  agenda := htu.agenda.trans hst.agenda
  schedule := htu.schedule.trans hst.schedule
  draws := htu.draws.trans hst.draws

/-- The block `V0` to `Vx` as the registers it names. -/
theorem mem_regs_up_to (x r : Nibble) :
    r ∈ (List.range (x.toNat + 1)).map (BitVec.ofNat 4) ↔ r ≤ x := by
  rw [List.mem_map, BitVec.le_def]
  constructor
  · rintro ⟨k, hk, rfl⟩
    have := List.mem_range.1 hk
    exact (BitVec.toNat_ofNat k 4).trans_le ((Nat.mod_le _ _).trans (by omega))
  · intro hr
    exact ⟨r.toNat, List.mem_range.2 (by omega), BitVec.ofNat_toNat 4 r |>.trans (by simp)⟩

theorem keeps_setV_readFrom (s : State) (a : Nat) (x : Nibble) :
    KeepsAllBut { regs := (List.range (x.toNat + 1)).map (BitVec.ofNat 4) } s
      (s.setV (regsFrom s.v 0 (Memory.readFrom s.font s.mem a (x.toNat + 1)))) :=
  { keeps_self { regs := (List.range (x.toNat + 1)).map (BitVec.ofNat 4) } s with
    regs := fun r hr => by
      rw [mem_regs_up_to, BitVec.le_def] at hr
      rw [reg_setV_readFrom, if_neg (by omega)] }

/-- What each instruction may change, `pc` apart: its destinations, as the rules of 41_flow to 45_keys_timers name
them. -/
def touched (s : State) : Instr → Touched
  | .sys _ | .jp _ | .jpV0 _ | .seImm _ _ | .sneImm _ _ | .seReg _ _ | .sneReg _ _ | .skp _ | .sknp _ => {}
  | .ret => { sp := true }
  | .call _ => { slots := [s.sp.toNat], sp := true }
  | .ldImm x _ | .addImm x _ | .ldReg x _ | .orReg x _ | .andReg x _ | .xorReg x _ | .rnd x _ | .ldVxDt x =>
    { regs := [x] }
  | .addReg x _ | .sub x _ | .shr x _ | .subn x _ | .shl x _ => { regs := [x, 15#4] }
  | .ldI _ | .addI _ | .ldF _ => { index := true }
  | .ldB _ => { bytes := List.range' s.index.toNat 3 }
  | .stRegs x => { bytes := List.range' s.index.toNat (x.toNat + 1) }
  | .ldRegs x => { regs := (List.range (x.toNat + 1)).map (BitVec.ofNat 4) }
  | .cls => { fb := true }
  | .drw _ _ _ => { regs := [15#4], fb := true }
  | .ldVxK _ => { wait := true }
  | .ldDtVx _ => { dt := true }
  | .ldStVx _ => { st := true }

/-- No instruction changes what its row of `touched` does not list. -/
theorem exec_keeps {i : Instr} {s t : State} (h : exec i s = .next t) : KeepsAllBut (touched s i) s t := by
  cases i with
  | sys _ =>
    cases h
    exact keeps_advance _ _ _ (keeps_self _ s)
  | jp _ | jpV0 _ =>
    cases h
    exact keeps_jump _ _ _ _ (keeps_self _ s)
  | seImm _ _ | sneImm _ _ | seReg _ _ | sneReg _ _ | skp _ | sknp _ =>
    cases h
    exact keeps_skipIf _ _ _ _ (keeps_self _ s)
  | ret =>
    obtain ⟨-, rfl⟩ := execRet_next s t h
    exact { keeps_self (touched s .ret) s with sp := nofun }
  | call nnn =>
    obtain ⟨hsp, rfl⟩ := execCall_next nnn s t h
    exact
      { keeps_self (touched s (.call nnn)) s with
        sp := nofun
        slots := fun k hk => Vector.getElem_set_ne hsp _ (by simpa [touched, eq_comm] using hk) }
  | ldImm _ _ | addImm _ _ | ldReg _ _ | orReg _ _ | andReg _ _ | xorReg _ _ | rnd _ _ | ldVxDt _ =>
    cases h
    exact keeps_advance _ _ _ (keeps_setReg _ _ _)
  | addReg _ _ | sub _ _ | shr _ _ | subn _ _ | shl _ _ =>
    cases h
    exact keeps_advance _ _ _ (keeps_setFlagged _ _ _ _)
  | ldI _ | addI _ | ldF _ =>
    cases h
    exact keeps_advance _ _ _ (keeps_setIndex _ _)
  | ldB x =>
    obtain ⟨-, rfl⟩ := execLdB_next x s t h
    exact keeps_advance _ _ _ (keeps_writeFrom s _ (bcdDigits (s.reg x)))
  | stRegs x =>
    obtain ⟨-, rfl⟩ := execStRegs_next x s t h
    rw [touched, ← s.length_regBlock x]
    exact keeps_advance _ _ _ (keeps_writeFrom s _ _)
  | ldRegs x =>
    obtain ⟨bs, hbs, rfl⟩ := execLdRegs_next x s t h
    obtain ⟨-, rfl⟩ := (s.blockAtI_some _ _).1 hbs
    exact keeps_advance _ _ _ (keeps_setV_readFrom s _ x)
  | cls =>
    cases h
    exact keeps_advance _ _ _ (keeps_setFb _ _)
  | drw x y n =>
    obtain ⟨rows, -, rfl⟩ := execDrw_next x y n s t h
    exact keeps_advance _ _ _ (keeps_setReg_after (keeps_setFb _ _) _ _)
  | ldVxK x =>
    cases h
    exact keeps_beginWait s x
  | ldDtVx _ =>
    cases h
    exact keeps_advance _ _ _ (keeps_setDt _ _)
  | ldStVx _ =>
    cases h
    exact keeps_advance _ _ _ (keeps_setSt _ _)

/-- Every way a step answers a next state, with the instruction that ran as the one the core was about to run. -/
theorem step_next_cases {s t : State} (h : step s = .next t) :
    (∃ i u, AboutToRun s i ∧ exec i s = .next u ∧ t = u.consume) ∨
    (∃ inp, s.nextOp = .step inp ∧ s.waiting = true ∧ t = s.resolveWait.consume) ∨
    (s.nextOp = .tickTimers ∧ t = s.tickTimers.consume) ∨
    (∃ image, s.nextOp = .load image ∧ image.length ≤ 3584 ∧
      t = (s.setMem (Memory.writeFrom s.font s.mem 0x200 image)).consume) ∨
    (s.nextOp = .reset ∧ t = s.resetCore.consume) := by
  rcases step_next s t h with hwait | ⟨inp, w, i, u, ho, hw, hf, hd, he, rfl⟩ | hrest
  · exact .inr (.inl hwait)
  · exact .inl ⟨i, u, aboutToRun_of_fetch ho hw hf hd, he, rfl⟩
  · exact .inr (.inr hrest)

end Sys2Proof.Machine
end

section
/-! The two invariants of the machine: memory in canonical form with a legal depth (20_memory section 3, 10_state
sections 4 and 5), and the bounds on `pc` and on the live call-stack entries (10_state section 3). Each is shown of one
instruction, then of one step. -/

namespace Sys2Proof.Machine

open Sys2Proof.Safety

/-! ## Legal -/

/-- Only the two stores write memory, each a block whose addresses exist. -/
theorem exec_keeps_wf {i : Instr} {s t : State} (hwf : Memory.wf s.font s.mem) (h : exec i s = .next t) :
    Memory.wf t.font t.mem := by
  cases i with
  | ldB x =>
    obtain ⟨hr, rfl⟩ := execLdB_next x s t h
    exact Memory.wf_writeFrom s.font (bcdDigits (s.reg x)) s.mem hwf _ hr
  | stRegs x =>
    obtain ⟨hr, rfl⟩ := execStRegs_next x s t h
    exact Memory.wf_writeFrom s.font (s.regBlock x) s.mem hwf _ hr
  | ret =>
    obtain ⟨-, rfl⟩ := execRet_next s t h
    exact hwf
  | call nnn =>
    obtain ⟨-, rfl⟩ := execCall_next nnn s t h
    exact hwf
  | drw x y n =>
    obtain ⟨_, -, rfl⟩ := execDrw_next x y n s t h
    exact hwf
  | ldRegs x =>
    obtain ⟨_, -, rfl⟩ := execLdRegs_next x s t h
    exact hwf
  | _ =>
    cases h
    exact hwf

/-- RET lowers a depth that is at least 1. -/
theorem toNat_sp_sub_one {sp : BitVec 5} (h : 1 ≤ sp.toNat) : (sp - 1#5).toNat = sp.toNat - 1 :=
  BitVec.toNat_sub_of_le h

/-- CALL raises a depth that is at most 15. -/
theorem toNat_sp_add_one {sp : BitVec 5} (h : sp.toNat < 16) : (sp + 1#5).toNat = sp.toNat + 1 :=
  BitVec.toNat_add_of_lt (show sp.toNat + 1 < 2 ^ 5 by omega)

/-- An instruction other than RET and CALL leaves the depth and the slots. -/
theorem exec_stack_eq {i : Instr} {s t : State} (h : exec i s = .next t) (hret : i ≠ .ret)
    (hcall : ∀ nnn, i ≠ .call nnn) : t.sp = s.sp ∧ t.stack = s.stack := by
  have hk := exec_keeps h
  have htouched : (touched s i).sp = false ∧ (touched s i).slots = [] := by
    cases i with
    | ret => exact absurd rfl hret
    | call nnn => exact absurd rfl (hcall nnn)
    | _ => exact ⟨rfl, rfl⟩
  obtain ⟨hsp, hslots⟩ := htouched
  exact ⟨hk.sp hsp, Vector.ext fun k hlt => hk.slots ⟨k, hlt⟩ (by simp [hslots])⟩

theorem exec_keeps_depth {i : Instr} {s t : State} (hsp : s.sp.toNat ≤ 16) (h : exec i s = .next t) :
    t.sp.toNat ≤ 16 := by
  by_cases hret : i = .ret
  · subst hret
    obtain ⟨⟨hpos, hle⟩, rfl⟩ := execRet_next s t h
    exact (toNat_sp_sub_one hpos).trans_le ((Nat.sub_le _ _).trans hle)
  by_cases hcall : ∃ nnn, i = .call nnn
  · obtain ⟨nnn, rfl⟩ := hcall
    obtain ⟨hlt, rfl⟩ := execCall_next nnn s t h
    exact (toNat_sp_add_one hlt).trans_le hlt
  · obtain ⟨he, -⟩ := exec_stack_eq h hret (not_exists.1 hcall)
    exact he ▸ hsp

/-- Both parts of `Legal` are of the core's own state, which `consume` leaves alone. -/
theorem legal_consume {s : State} (h : Legal s) : Legal s.consume := by
  simpa [Legal] using h

/-- Settles O51: `exec_keeps_wf` and `exec_keeps_depth` for the instruction a `step` runs; of the other operations only
`load` and `reset` write memory. -/
theorem stepKeepsMemoryAndDepthLegal : Obligations.StepKeepsMemoryAndDepthLegal := by
  rintro s t ⟨hwf, hsp⟩ h
  rcases step_next_cases h with ⟨i, u, -, he, rfl⟩ | ⟨inp, -, -, rfl⟩ | ⟨-, rfl⟩ | ⟨image, -, hlen, rfl⟩ | ⟨-, rfl⟩
  · exact ⟨legal_consume ⟨exec_keeps_wf hwf he, exec_keeps_depth hsp he⟩, u.consume_font.trans (exec_keeps he).font⟩
  · exact ⟨legal_consume (by simpa [Legal] using And.intro hwf hsp), by simp⟩
  · exact ⟨legal_consume ⟨hwf, hsp⟩, by simp⟩
  · have hr : InRange 0x200 image.length := .inr (by simp only [Config.memSize]; omega)
    exact ⟨legal_consume ⟨Memory.wf_writeFrom s.font image s.mem hwf 0x200 hr, hsp⟩, by simp⟩
  · exact ⟨legal_consume ⟨⟨List.Pairwise.nil, nofun⟩, Nat.zero_le 16⟩, s.resetCore.consume_font⟩

/-! ## PcBounded -/

theorem toNat_add_le_of_fetched {pc k : Word} (hpc : pc.toNat ≤ 0xFFE) (hk : k.toNat ≤ 4) :
    (pc + k).toNat ≤ 0x1002 := by
  rw [BitVec.toNat_add_of_lt (by omega)]
  omega

theorem toNat_skip_le {pc : Word} (hpc : pc.toNat ≤ 0xFFE) (c : Bool) :
    (if c then pc + 4#16 else pc + 2#16).toNat ≤ 0x1002 := by
  split_ifs
  · exact toNat_add_le_of_fetched hpc (by decide)
  · exact toNat_add_le_of_fetched hpc (by decide)

@[simp] theorem toNat_byte16 (b : Byte) : (byte16 b).toNat = b.toNat :=
  BitVec.toNat_setWidth_of_le (by decide)

/-- The sum of Bnnn is not reduced (D20): it is at most 0xFFF + 0xFF. -/
theorem toNat_addr16_add_byte16 (nnn : Addr12) (b : Byte) :
    (addr16 nnn + byte16 b).toNat = nnn.toNat + b.toNat := by
  have := nnn.isLt
  have := b.isLt
  rw [BitVec.toNat_add_of_lt (by simp; omega), toNat_addr16, toNat_byte16]

theorem toNat_addr16_le (nnn : Addr12) : (addr16 nnn).toNat ≤ 0x10FE := by
  have := nnn.isLt
  rw [toNat_addr16]
  omega

/-- Where an instruction fetched from `pc` leaves `pc`: the highest target is that of Bnnn. -/
theorem exec_pc_le {i : Instr} {s t : State} (hpc : s.pc.toNat ≤ 0xFFE)
    (hlive : ∀ k : Fin 16, k.val < s.sp.toNat → s.stack[k].toNat ≤ 0xFFE) (h : exec i s = .next t) :
    t.pc.toNat ≤ 0x10FE := by
  have hadv : (s.pc + 2#16).toNat ≤ 0x1002 := toNat_add_le_of_fetched hpc (by decide)
  cases i with
  | ret =>
    obtain ⟨⟨hpos, hle⟩, rfl⟩ := execRet_next s t h
    have hentry := hlive ⟨s.sp.toNat - 1, by omega⟩ (Nat.sub_lt hpos Nat.one_pos)
    exact (toNat_add_le_of_fetched hentry (by decide)).trans (by decide)
  | call nnn =>
    obtain ⟨-, rfl⟩ := execCall_next nnn s t h
    exact toNat_addr16_le nnn
  | jp nnn =>
    cases h
    exact toNat_addr16_le nnn
  | jpV0 nnn =>
    cases h
    have := nnn.isLt
    have := (s.reg 0#4).isLt
    rw [State.jump_pc, toNat_addr16_add_byte16]
    omega
  | seImm _ _ | sneImm _ _ | seReg _ _ | sneReg _ _ | skp _ | sknp _ =>
    cases h
    exact (toNat_skip_le hpc _).trans (by decide)
  | ldVxK x =>
    cases h
    exact hpc.trans (by decide)
  | drw x y n =>
    obtain ⟨_, -, rfl⟩ := execDrw_next x y n s t h
    exact hadv.trans (by decide)
  | ldB x =>
    obtain ⟨-, rfl⟩ := execLdB_next x s t h
    exact hadv.trans (by decide)
  | stRegs x =>
    obtain ⟨-, rfl⟩ := execStRegs_next x s t h
    exact hadv.trans (by decide)
  | ldRegs x =>
    obtain ⟨_, -, rfl⟩ := execLdRegs_next x s t h
    exact hadv.trans (by decide)
  | _ =>
    cases h
    exact hadv.trans (by decide)

/-- An instruction other than Fx0A leaves the wait as it was. -/
theorem exec_waiting_eq {i : Instr} {s t : State} (h : exec i s = .next t) (hwait : ∀ x, i ≠ .ldVxK x) :
    t.waiting = s.waiting := by
  refine (exec_keeps h).waiting ?_
  cases i with
  | ldVxK x => exact absurd rfl (hwait x)
  | _ => rfl

/-- An instruction begins a wait only if it is Fx0A, which leaves `pc` at itself (R143). -/
theorem exec_begins_wait {i : Instr} {s t : State} (h : exec i s = .next t) (hs : s.waiting = false)
    (ht : t.waiting = true) : ∃ x, i = .ldVxK x ∧ t.waitDest = x ∧ t.pc = s.pc := by
  by_cases hi : ∃ x, i = .ldVxK x
  · obtain ⟨x, rfl⟩ := hi
    cases h
    exact ⟨x, rfl, rfl, rfl⟩
  · have := exec_waiting_eq h (not_exists.1 hi)
    simp [hs, ht] at this

/-- The live entries stay addresses of fetched instructions: CALL pushes its own address, RET drops one. -/
theorem exec_keeps_live {i : Instr} {s t : State} (hpc : s.pc.toNat ≤ 0xFFE)
    (hlive : ∀ k : Fin 16, k.val < s.sp.toNat → s.stack[k].toNat ≤ 0xFFE) (h : exec i s = .next t) :
    ∀ k : Fin 16, k.val < t.sp.toNat → t.stack[k].toNat ≤ 0xFFE := by
  intro k hk
  by_cases hret : i = .ret
  · subst hret
    obtain ⟨⟨hpos, _⟩, rfl⟩ := execRet_next s t h
    have hsp : k.val < s.sp.toNat - 1 := Nat.lt_of_lt_of_eq hk (toNat_sp_sub_one hpos)
    exact hlive k (by omega)
  by_cases hcall : ∃ nnn, i = .call nnn
  · obtain ⟨nnn, rfl⟩ := hcall
    obtain ⟨hlt, rfl⟩ := execCall_next nnn s t h
    have hsp : k.val < s.sp.toNat + 1 := Nat.lt_of_lt_of_eq hk (toNat_sp_add_one hlt)
    show ((s.stack.set s.sp.toNat s.pc hlt)[k.val]).toNat ≤ 0xFFE
    rw [Vector.getElem_set]
    split_ifs
    · exact hpc
    · exact hlive k (by omega)
  · obtain ⟨hsp, hstack⟩ := exec_stack_eq h hret (not_exists.1 hcall)
    rw [hstack]
    exact hlive k (hsp ▸ hk)

/-- Resolving a wait advances past the Fx0A that began it, or changes nothing of the bounds. -/
theorem pcBounded_resolveWait {s : State} (h : PcBounded s) (hw : s.waiting = true) : PcBounded s.resolveWait := by
  obtain ⟨hpc, hwpc, hsp, hlive⟩ := h
  rcases s.resolveWait_cases with ⟨k, -, -, hr⟩ | ⟨-, hr⟩
  · rw [hr]
    exact ⟨(toNat_add_le_of_fetched (hwpc hw) (by decide)).trans (by decide), nofun, hsp, hlive⟩
  · rw [hr]
    exact ⟨hpc, hwpc, hsp, hlive⟩

theorem pcBounded_reset : PcBounded State.reset :=
  ⟨by decide, nofun, by decide, fun k hk => absurd hk (Nat.not_lt_zero k.val)⟩

theorem exec_keeps_pcBounded {i : Instr} {s t : State} (hs : PcBounded s) (hrun : AboutToRun s i)
    (h : exec i s = .next t) : PcBounded t := by
  obtain ⟨-, -, hsp, hlive⟩ := hs
  obtain ⟨-, hw, hpc, -⟩ := hrun
  refine ⟨exec_pc_le hpc hlive h, fun ht => ?_, exec_keeps_depth hsp h, exec_keeps_live hpc hlive h⟩
  obtain ⟨_, -, -, hpcEq⟩ := exec_begins_wait h hw ht
  exact hpcEq ▸ hpc

/-- The bounds are of the core's own state, which `consume` leaves alone. -/
theorem pcBounded_consume {s : State} (h : PcBounded s) : PcBounded s.consume := by
  simpa [PcBounded] using h

/-- Settles O52: each operation keeps the bounds, the instruction a `step` runs by `exec_keeps_pcBounded`. -/
theorem stepKeepsPcBounded : Obligations.StepKeepsPcBounded := by
  intro s t hs h
  rcases step_next_cases h with ⟨i, u, hrun, he, rfl⟩ | ⟨inp, -, hw, rfl⟩ | ⟨-, rfl⟩ | ⟨image, -, -, rfl⟩ | ⟨-, rfl⟩
  · exact pcBounded_consume (exec_keeps_pcBounded hs hrun he)
  · exact pcBounded_consume (pcBounded_resolveWait hs hw)
  · exact pcBounded_consume hs
  · exact pcBounded_consume hs
  · exact pcBounded_consume pcBounded_reset

/-- Settles O50: the memory of the reset state lists no cell and its depth is 0. -/
theorem invariantsHoldAtReset : Obligations.InvariantsHoldAtReset :=
  ⟨⟨Memory.wf_reset, by decide⟩, pcBounded_reset⟩

end Sys2Proof.Machine
end

section
/-! Which operations may change each item of the core (10_state section 4, 40_operations section 6). An instruction that
changes an item has it in its row of `touched`; the other operations are inspected one by one. -/

namespace Sys2Proof.Machine

open Sys2Proof.Safety

/-! The rows of `touched` that list an item -/

theorem touched_fb {s : State} {i : Instr} (h : (touched s i).fb ≠ false) :
    i = .cls ∨ ∃ x y n, i = .drw x y n := by
  cases i with
  | cls => exact .inl rfl
  | drw x y n => exact .inr ⟨x, y, n, rfl⟩
  | _ => exact absurd rfl h

theorem touched_dt {s : State} {i : Instr} (h : (touched s i).dt ≠ false) : ∃ x, i = .ldDtVx x := by
  cases i with
  | ldDtVx x => exact ⟨x, rfl⟩
  | _ => exact absurd rfl h

theorem touched_st {s : State} {i : Instr} (h : (touched s i).st ≠ false) : ∃ x, i = .ldStVx x := by
  cases i with
  | ldStVx x => exact ⟨x, rfl⟩
  | _ => exact absurd rfl h

theorem touched_index {s : State} {i : Instr} (h : (touched s i).index ≠ false) :
    (∃ nnn, i = .ldI nnn) ∨ (∃ x, i = .addI x) ∨ ∃ x, i = .ldF x := by
  cases i with
  | ldI nnn => exact .inl ⟨nnn, rfl⟩
  | addI x => exact .inr (.inl ⟨x, rfl⟩)
  | ldF x => exact .inr (.inr ⟨x, rfl⟩)
  | _ => exact absurd rfl h

theorem touched_bytes {s : State} {i : Instr} {a : Nat} (h : a ∈ (touched s i).bytes) :
    (∃ x, i = .ldB x ∧ s.index.toNat ≤ a ∧ a ≤ s.index.toNat + 2) ∨
    (∃ x, i = .stRegs x ∧ s.index.toNat ≤ a ∧ a ≤ s.index.toNat + x.toNat) := by
  cases i with
  | ldB x =>
    obtain ⟨hle, hlt⟩ := List.mem_range'_1.1 h
    exact .inl ⟨x, rfl, hle, by omega⟩
  | stRegs x =>
    obtain ⟨hle, hlt⟩ := List.mem_range'_1.1 h
    exact .inr ⟨x, rfl, hle, by omega⟩
  | _ => exact absurd h List.not_mem_nil

/-! The statements -/

/-- Settles O53: only an instruction can begin a wait, and `exec_begins_wait` says which. -/
theorem waitIsEnteredOnlyByKeyInstruction : Obligations.WaitIsEnteredOnlyByKeyInstruction := by
  intro s t h hs ht
  rcases step_next_cases h with ⟨i, u, hrun, he, rfl⟩ | ⟨inp, -, hw, -⟩ | ⟨-, rfl⟩ | ⟨image, -, -, rfl⟩ | ⟨-, rfl⟩
  · obtain ⟨x, rfl, hdest, hpc⟩ := exec_begins_wait he hs (u.consume_waiting.symm.trans ht)
    exact ⟨x, hrun, u.consume_waitDest.trans hdest, u.consume_pc.trans hpc⟩
  · simp [hs] at hw
  · simp [hs] at ht
  · simp [hs] at ht
  · rw [State.consume_waiting] at ht
    cases ht

/-- Settles O54: of the operations during a wait only `reset` and a `step` that resolves it can end it. -/
theorem waitIsLeftOnlyByKeyOrReset : Obligations.WaitIsLeftOnlyByKeyOrReset := by
  intro s t h hs ht
  rcases step_next_cases h with
    ⟨i, u, ⟨-, hw, -, -⟩, -, -⟩ | ⟨inp, ho, -, rfl⟩ | ⟨-, rfl⟩ | ⟨image, -, -, rfl⟩ | ⟨ho, -⟩
  · simp [hs] at hw
  · have hin := s.inputs_of_step inp ho
    rcases s.resolveWait_cases with ⟨k, hev, hlow, -⟩ | ⟨-, hr⟩
    · obtain ⟨hk, hdown, -⟩ := (lowestKey_some _ _).1 (hin ▸ hlow)
      exact .inr ⟨inp, ho, hin ▸ hev, k, hk, hdown⟩
    · simp [hr, hs] at ht
  · simp [hs] at ht
  · simp [hs] at ht
  · exact .inl ho

/-- Settles O55: `touched_fb` for the instruction that ran; the other operations but `reset` leave the display. -/
theorem displayChangesOnlyByDrawing : Obligations.DisplayChangesOnlyByDrawing := by
  intro s t h hfb
  rcases step_next_cases h with ⟨i, u, hrun, he, rfl⟩ | ⟨inp, -, -, rfl⟩ | ⟨-, rfl⟩ | ⟨image, -, -, rfl⟩ | ⟨ho, -⟩
  · rw [State.consume_fb] at hfb
    rcases touched_fb (mt (exec_keeps he).fb hfb) with rfl | ⟨x, y, n, rfl⟩
    · exact .inr (.inl hrun)
    · exact .inr (.inr ⟨x, y, n, hrun⟩)
  · simp at hfb
  · simp at hfb
  · simp at hfb
  · exact .inl ho

/-- Settles O56: `touched_bytes` for the instruction that ran; a `load` writes its image alone. The frames used hold of
every state, so the premise `Legal` is not needed. -/
theorem memoryChangesOnlyByStores : Obligations.MemoryChangesOnlyByStores := by
  intro s t a _ h hc
  rcases step_next_cases h with
    ⟨i, u, hrun, he, rfl⟩ | ⟨inp, -, -, rfl⟩ | ⟨-, rfl⟩ | ⟨image, ho, -, rfl⟩ | ⟨ho, -⟩
  · rw [State.readByte_consume] at hc
    rcases touched_bytes (not_not.1 (mt ((exec_keeps he).bytes a) hc)) with ⟨x, rfl, ha⟩ | ⟨x, rfl, ha⟩
    · exact .inr (.inr (.inl ⟨x, hrun, ha⟩))
    · exact .inr (.inr (.inr ⟨x, hrun, ha⟩))
  · simp at hc
  · simp at hc
  · rw [State.readByte_consume] at hc
    have ha := not_not.1 (mt ((keeps_writeFrom s 0x200 image).bytes a) hc)
    exact .inr (.inl ⟨image, ho, List.mem_range'_1.1 ha⟩)
  · exact .inl ho

/-- R73: a timer falls by one and stops at 0. -/
theorem toNat_countDown (b : Byte) : (countDown b).toNat = b.toNat - 1 := by
  unfold countDown
  split_ifs with h
  · simp [h]
  · have hpos : 1 ≤ b.toNat := Nat.one_le_iff_ne_zero.2 fun h0 => h (BitVec.eq_of_toNat_eq h0)
    exact BitVec.toNat_sub_of_le hpos

/-- A `step` changes a timer only by running the instruction that writes it. -/
theorem step_timers {s t : State} {inp : Inputs} (h : step s = .next t) (ho : s.nextOp = .step inp) :
    (t.dt = s.dt ∨ ∃ x, AboutToRun s (.ldDtVx x)) ∧ (t.st = s.st ∨ ∃ x, AboutToRun s (.ldStVx x)) := by
  rcases step_next_cases h with ⟨i, u, hrun, he, rfl⟩ | ⟨inp, -, -, rfl⟩ | ⟨ho', -⟩ | ⟨image, ho', -⟩ | ⟨ho', -⟩
  · rw [State.consume_dt, State.consume_st]
    refine ⟨or_iff_not_imp_left.2 fun hdt => ?_, or_iff_not_imp_left.2 fun hst => ?_⟩
    · obtain ⟨x, rfl⟩ := touched_dt (mt (exec_keeps he).dt hdt)
      exact ⟨x, hrun⟩
    · obtain ⟨x, rfl⟩ := touched_st (mt (exec_keeps he).st hst)
      exact ⟨x, hrun⟩
  · simp
  · cases ho.symm.trans ho'
  · cases ho.symm.trans ho'
  · cases ho.symm.trans ho'

/-- An operation that is no `step` raises no timer. -/
theorem timers_le_of_not_step {s t : State} (h : step s = .next t) (ho : ∀ inp, s.nextOp ≠ .step inp) :
    t.dt.toNat ≤ s.dt.toNat ∧ t.st.toNat ≤ s.st.toNat := by
  rcases step_next_cases h with ⟨_, _, ⟨⟨inp, ho'⟩, -⟩, -⟩ | ⟨inp, ho', -⟩ | ⟨-, rfl⟩ | ⟨image, -, -, rfl⟩ | ⟨-, rfl⟩
  · exact absurd ho' (ho inp)
  · exact absurd ho' (ho inp)
  · simp [toNat_countDown]
  · simp
  · simp [State.resetCore, State.reset]

/-- Settles O57: a `step` by `step_timers`, any other operation by `timers_le_of_not_step`. -/
theorem timersFallUnlessWritten : Obligations.TimersFallUnlessWritten := by
  intro s t h
  by_cases ho : ∃ inp, s.nextOp = .step inp
  · obtain ⟨inp, ho⟩ := ho
    obtain ⟨hdt, hst⟩ := step_timers h ho
    exact ⟨hdt.imp_left fun e => (congrArg BitVec.toNat e).le, hst.imp_left fun e => (congrArg BitVec.toNat e).le,
      fun _ _ => ⟨hdt, hst⟩⟩
  · obtain ⟨hdt, hst⟩ := timers_le_of_not_step h (not_exists.1 ho)
    exact ⟨.inl hdt, .inl hst, fun inp ho' => absurd ⟨inp, ho'⟩ ho⟩

/-- Settles O58: `exec_stack_eq` and `touched_index` for the instruction that ran. -/
theorem stackAndIndexHaveFewWriters : Obligations.StackAndIndexHaveFewWriters := by
  intro s t h
  rcases step_next_cases h with ⟨i, u, hrun, he, rfl⟩ | ⟨inp, -, -, rfl⟩ | ⟨-, rfl⟩ | ⟨image, -, -, rfl⟩ | ⟨ho, -⟩
  · rw [State.consume_sp, State.consume_stack, State.consume_index]
    refine ⟨fun hc => .inr ?_, fun hc => .inr ?_⟩
    · by_contra hn
      obtain ⟨hret, hcall⟩ := not_or.1 hn
      obtain ⟨hsp, hstack⟩ :=
        exec_stack_eq he (fun hi => hret (hi ▸ hrun)) (fun nnn hi => hcall ⟨nnn, hi ▸ hrun⟩)
      exact hc.elim (· hsp) (· hstack)
    · rcases touched_index (mt (exec_keeps he).index hc) with ⟨nnn, rfl⟩ | ⟨x, rfl⟩ | ⟨x, rfl⟩
      · exact .inl ⟨nnn, hrun⟩
      · exact .inr (.inl ⟨x, hrun⟩)
      · exact .inr (.inr ⟨x, hrun⟩)
  · simp
  · simp
  · simp
  · exact ⟨fun _ => .inl ho, fun _ => .inl ho⟩

end Sys2Proof.Machine
end

section
/-! Errors and inputs (60_exceptions section 1, 40_operations section 5): which instruction can end in which error, and
that an instruction sees of the environment only the inputs of the step. -/

namespace Sys2Proof.Machine

open Sys2Proof.Safety

/-! ## The errors of each instruction -/

theorem execRet_fault (s : State) (f : Fault) :
    exec .ret s = .fault f ↔
      f = .stackUnderflow ∧ s.sp = 0#5 ∨ f = .stackPointerOutOfRange ∧ 16 < s.sp.toNat := by
  by_cases h0 : s.sp = 0#5
  · simp [exec, execRet, raise, h0, eq_comm]
  · have hpos : 1 ≤ s.sp.toNat := Nat.one_le_iff_ne_zero.2 fun h => h0 (BitVec.eq_of_toNat_eq h)
    by_cases hle : s.sp.toNat ≤ 16
    · simp [exec, execRet, State.pop, h0, hpos, hle]
    · simp [exec, execRet, State.pop, raise, h0, hle, Nat.lt_of_not_le hle, eq_comm]

theorem execCall_fault (nnn : Addr12) (s : State) (f : Fault) :
    exec (.call nnn) s = .fault f ↔
      f = .stackOverflow ∧ s.sp = 16#5 ∨ f = .stackPointerOutOfRange ∧ 16 < s.sp.toNat := by
  by_cases h16 : s.sp = 16#5
  · simp [exec, execCall, raise, h16, eq_comm]
  · have hne : s.sp.toNat ≠ 16 := fun h => h16 (BitVec.eq_of_toNat_eq h)
    by_cases hlt : s.sp.toNat < 16
    · simp [exec, execCall, State.push, h16, hlt, Nat.le_of_lt hlt]
    · simp [exec, execCall, State.push, raise, h16, hlt, show 16 < s.sp.toNat by omega, eq_comm]

theorem execDrw_fault (x y n : Nibble) (s : State) (f : Fault) :
    exec (.drw x y n) s = .fault f ↔ f = .addressOutOfRange ∧ ¬ InRange s.index.toNat n.toNat := by
  rw [← s.blockAtI_none]
  cases hb : s.blockAtI n.toNat with
  | none => simp [exec, execDrw, hb, raise, eq_comm]
  | some rows => simp [exec, execDrw, hb]

theorem execLdB_fault (x : Nibble) (s : State) (f : Fault) :
    exec (.ldB x) s = .fault f ↔ f = .addressOutOfRange ∧ ¬ InRange s.index.toNat 3 := by
  rw [← length_bcdDigits (s.reg x), ← s.storeAtI_none]
  cases hb : s.storeAtI (bcdDigits (s.reg x)) with
  | none => simp [exec, execLdB, hb, raise, eq_comm]
  | some t => simp [exec, execLdB, hb]

theorem execStRegs_fault (x : Nibble) (s : State) (f : Fault) :
    exec (.stRegs x) s = .fault f ↔ f = .addressOutOfRange ∧ ¬ InRange s.index.toNat (x.toNat + 1) := by
  rw [← s.length_regBlock x, ← s.storeAtI_none]
  cases hb : s.storeAtI (s.regBlock x) with
  | none => simp [exec, execStRegs, hb, raise, eq_comm]
  | some t => simp [exec, execStRegs, hb]

theorem execLdRegs_fault (x : Nibble) (s : State) (f : Fault) :
    exec (.ldRegs x) s = .fault f ↔ f = .addressOutOfRange ∧ ¬ InRange s.index.toNat (x.toNat + 1) := by
  rw [← s.blockAtI_none]
  cases hb : s.blockAtI (x.toNat + 1) with
  | none => simp [exec, execLdRegs, hb, raise, eq_comm]
  | some bs => simp [exec, execLdRegs, hb]

/-! A block through `I` misses memory exactly when its last address is above 0xFFF (R36). -/

theorem inRange_succ (base k : Nat) : InRange base (k + 1) ↔ base + k ≤ 0xFFF := by
  simp only [InRange, Config.memSize]
  omega

theorem not_inRange_succ (base k : Nat) : ¬ InRange base (k + 1) ↔ 0xFFF < base + k :=
  (not_congr (inRange_succ base k)).trans Nat.not_le

theorem not_inRange_sprite (base n : Nat) : ¬ InRange base n ↔ 1 ≤ n ∧ 0xFFF < base + n - 1 := by
  simp only [InRange, Config.memSize]
  omega

/-- Settles O41: each of the four instructions faults exactly when its block misses memory. -/
theorem dataBoundsAreExact : Obligations.DataBoundsAreExact := by
  intro x y n s
  rw [execDrw_fault, execLdB_fault, execStRegs_fault, execLdRegs_fault, not_inRange_sprite, not_inRange_succ,
    not_inRange_succ]
  simp

theorem exec_ne_refused (i : Instr) (s : State) (r : Refusal) : exec i s ≠ .refused r := by
  cases i with
  | ret =>
    simp only [exec, execRet]
    split_ifs
    · exact nofun
    · split <;> exact nofun
  | call nnn =>
    simp only [exec, execCall]
    split_ifs
    · exact nofun
    · split <;> exact nofun
  | drw _ _ _ | ldB _ | stRegs _ | ldRegs _ =>
    simp only [exec, execDrw, execLdB, execStRegs, execLdRegs]
    split <;> exact nofun
  | _ => exact nofun

/-- Settles O48: the six instructions that can fault by the lemma of each; the other meanings answer `next`. -/
theorem errorsComeOnlyFromTheirCauses : Obligations.ErrorsComeOnlyFromTheirCauses := by
  intro i s
  refine ⟨exec_ne_refused i s, fun f h => ?_⟩
  cases i with
  | ret => exact .inl ⟨rfl, (execRet_fault s f).1 h⟩
  | call nnn => exact .inr (.inl ⟨nnn, rfl, (execCall_fault nnn s f).1 h⟩)
  | drw x y n =>
    obtain ⟨hf, hr⟩ := (execDrw_fault x y n s f).1 h
    exact .inr (.inr ⟨hf, .inl ⟨x, y, n, rfl, (not_inRange_sprite _ _).1 hr⟩⟩)
  | ldB x =>
    obtain ⟨hf, hr⟩ := (execLdB_fault x s f).1 h
    exact .inr (.inr ⟨hf, .inr (.inl ⟨x, rfl, (not_inRange_succ _ _).1 hr⟩)⟩)
  | stRegs x =>
    obtain ⟨hf, hr⟩ := (execStRegs_fault x s f).1 h
    exact .inr (.inr ⟨hf, .inr (.inr (.inl ⟨x, rfl, (not_inRange_succ _ _).1 hr⟩))⟩)
  | ldRegs x =>
    obtain ⟨hf, hr⟩ := (execLdRegs_fault x s f).1 h
    exact .inr (.inr ⟨hf, .inr (.inr (.inr ⟨x, rfl, (not_inRange_succ _ _).1 hr⟩))⟩)
  | _ => cases h

/-! ## What an instruction sees of the environment -/

/-- The same core with other environment fields. -/
def State.withEnv (s : State) (ops : List EnvOp) (sched : Schedule) (n : Nat) : State :=
  { s with agenda := ops, schedule := sched, draws := n }

theorem sameCore_iff_withEnv (s t : State) : SameCore s t ↔ t = s.withEnv t.agenda t.schedule t.draws := Iff.rfl

@[simp] theorem State.withEnv_sp (s : State) (ops : List EnvOp) (sched : Schedule) (n : Nat) :
    (s.withEnv ops sched n).sp = s.sp := rfl

theorem State.pop_withEnv (s : State) (ops : List EnvOp) (sched : Schedule) (n : Nat) :
    (s.withEnv ops sched n).pop = s.pop.map (Prod.map id fun t => t.withEnv ops sched n) := by
  unfold State.pop
  split_ifs with henv h h
  · rfl
  · exact absurd henv h
  · exact absurd h henv
  · rfl

theorem State.push_withEnv (s : State) (w : Word) (ops : List EnvOp) (sched : Schedule) (n : Nat) :
    (s.withEnv ops sched n).push w = (s.push w).map fun t => t.withEnv ops sched n := by
  unfold State.push
  split_ifs with henv h h
  · rfl
  · exact absurd henv h
  · exact absurd h henv
  · rfl

theorem State.storeAtI_withEnv (s : State) (bs : List Byte) (ops : List EnvOp) (sched : Schedule) (n : Nat) :
    (s.withEnv ops sched n).storeAtI bs = (s.storeAtI bs).map fun t => t.withEnv ops sched n := by
  rw [State.storeAtI, State.storeAtI, show (s.withEnv ops sched n).index = s.index from rfl]
  unfold State.writeBytes
  split_ifs <;> rfl

/-- An instruction does the same from the same core, whatever the environment's fields, if the inputs it reads agree:
the keys for a key skip, the random byte for RND. -/
theorem exec_withEnv (i : Instr) (s : State) (ops : List EnvOp) (sched : Schedule) (n : Nat)
    (hkeys : ∀ x, i = .skp x ∨ i = .sknp x → (s.withEnv ops sched n).inputs.keys = s.inputs.keys)
    (hrnd : ∀ x kk, i = .rnd x kk → (s.withEnv ops sched n).inputs.rnd = s.inputs.rnd) :
    exec i (s.withEnv ops sched n) = mapNext (fun t => t.withEnv ops sched n) (exec i s) := by
  cases i with
  | skp x =>
    have hdown : (s.withEnv ops sched n).keyDown x = s.keyDown x :=
      congrArg (BitVec.getLsbD · ((s.reg x).toNat % 16)) (hkeys x (.inl rfl))
    simp only [exec, execSkp, hdown]
    rfl
  | sknp x =>
    have hdown : (s.withEnv ops sched n).keyDown x = s.keyDown x :=
      congrArg (BitVec.getLsbD · ((s.reg x).toNat % 16)) (hkeys x (.inr rfl))
    simp only [exec, execSknp, hdown]
    rfl
  | rnd x kk =>
    simp only [exec, execRnd, hrnd x kk rfl]
    rfl
  | ret =>
    simp only [exec, execRet, State.withEnv_sp, State.pop_withEnv]
    split_ifs
    · rfl
    · cases s.pop <;> rfl
  | call nnn =>
    have hpc : (s.withEnv ops sched n).pc = s.pc := rfl
    simp only [exec, execCall, State.withEnv_sp, State.push_withEnv, hpc]
    split_ifs
    · rfl
    · cases s.push s.pc <;> rfl
  | drw x y m =>
    have hblock : (s.withEnv ops sched n).blockAtI m.toNat = s.blockAtI m.toNat := rfl
    simp only [exec, execDrw, hblock]
    cases s.blockAtI m.toNat <;> rfl
  | ldRegs x =>
    have hblock : (s.withEnv ops sched n).blockAtI (x.toNat + 1) = s.blockAtI (x.toNat + 1) := rfl
    simp only [exec, execLdRegs, hblock]
    cases s.blockAtI (x.toNat + 1) <;> rfl
  | ldB x =>
    have hreg : (s.withEnv ops sched n).reg x = s.reg x := rfl
    simp only [exec, execLdB, State.storeAtI_withEnv, hreg]
    cases s.storeAtI (bcdDigits (s.reg x)) <;> rfl
  | stRegs x =>
    have hregs : (s.withEnv ops sched n).regBlock x = s.regBlock x := rfl
    simp only [exec, execStRegs, State.storeAtI_withEnv, hregs]
    cases s.storeAtI (s.regBlock x) <;> rfl
  | _ => rfl

/-- Settles O49: both runs are the run of one core, by `exec_withEnv`, up to the agenda. -/
theorem inputsAreReadOnlyWhereAllowed : Obligations.InputsAreReadOnlyWhereAllowed := by
  intro i s inp inp' rest rest' hkeys hrnd
  have hrun : exec i { s with agenda := .step inp' :: rest' } =
      mapNext (fun t => t.withEnv (.step inp' :: rest') s.schedule s.draws)
        (exec i { s with agenda := .step inp :: rest }) :=
    exec_withEnv i { s with agenda := .step inp :: rest } (.step inp' :: rest') s.schedule s.draws
      (fun x hx => (hkeys x hx).symm) (fun x kk hx => (hrnd x kk hx).symm)
  rw [hrun]
  cases hr : exec i { s with agenda := .step inp :: rest } with
  | next t =>
    obtain ⟨hsched, hdraws⟩ : t.schedule = s.schedule ∧ t.draws = s.draws :=
      ⟨(exec_keeps hr).schedule, (exec_keeps hr).draws⟩
    simp [State.withEnv, ← hsched, ← hdraws]
  | fault f => rfl
  | refused r => rfl

/-- An error of an instruction does not depend on the environment's fields. -/
theorem exec_fault_withEnv {i : Instr} {s : State} {f : Fault} (h : exec i s = .fault f) (ops : List EnvOp)
    (sched : Schedule) (n : Nat) : exec i (s.withEnv ops sched n) = .fault f := by
  rw [exec_withEnv i s ops sched n, h]
  · rfl
  · rintro x (rfl | rfl) <;> cases h
  · rintro x kk rfl
    cases h

/-- A `step` in state Running ends in an error exactly when the fetch, the decoder or the instruction does (R169). -/
theorem State.runInstruction_fault (s : State) (f : Fault) :
    s.runInstruction = .fault f ↔
      (s.fetch = none ∧ f = .addressOutOfRange) ∨
      ∃ w, s.fetch = some w ∧
        ((∃ v, decodeWord w = .unknown v ∧ f = .unknownOpcode v) ∨
          ∃ i, decodeWord w = .instr i ∧ exec i s = .fault f) := by
  unfold State.runInstruction
  cases hf : s.fetch with
  | none => simp [raise, eq_comm]
  | some w =>
    cases hd : decodeWord w with
    | unknown v => simp [hd, raise, eq_comm]
    | instr i => simp [hd]

theorem runInstruction_fault_withEnv {s : State} {f : Fault} (h : s.runInstruction = .fault f) (ops : List EnvOp)
    (sched : Schedule) (n : Nat) : (s.withEnv ops sched n).runInstruction = .fault f := by
  have hfetch : (s.withEnv ops sched n).fetch = s.fetch := rfl
  rw [State.runInstruction_fault] at h ⊢
  rw [hfetch]
  refine h.imp_right fun ⟨w, hw, h⟩ => ⟨w, hw, h.imp_right fun ⟨i, hd, he⟩ => ⟨i, hd, ?_⟩⟩
  exact exec_fault_withEnv he ops sched n

/-- Only a `step` in state Running can end a `step` operation in an error; a wait cannot (R77). -/
theorem step_fault_of_step {s : State} {inp : Inputs} {f : Fault} (ho : s.nextOp = .step inp)
    (h : step s = .fault f) : s.waiting = false ∧ s.runInstruction = .fault f := by
  cases hw : s.waiting with
  | true => cases (step_of_waiting s inp ho hw).symm.trans h
  | false => exact ⟨rfl, (mapNext_eq_fault _ _ _).1 ((step_of_running ho hw).symm.trans h)⟩

/-- Settles O15: the error came from `runInstruction`, which sees the core alone. -/
theorem errorsLeaveCoreAndRepeat : Obligations.ErrorsLeaveCoreAndRepeat := by
  intro s inp f ho h
  obtain ⟨hw, hrun⟩ := step_fault_of_step ho h
  refine ⟨sameCore_resume s, fun t inp' hcore ho' => ?_⟩
  rw [sameCore_iff_withEnv] at hcore
  have hwt : t.waiting = false := by rw [hcore]; exact hw
  have hrunt : t.runInstruction = .fault f := by
    rw [hcore]
    exact runInstruction_fault_withEnv hrun _ _ _
  exact (step_of_running ho' hwt).trans ((mapNext_eq_fault _ _ _).2 hrunt)

end Sys2Proof.Machine
end

section
/-! The operations of the environment (40_operations R71 to R75): reset, tick_timers, load, the fetch of a `step`, and
the placing of one word. -/

namespace Sys2Proof.Machine

open Sys2Proof.Safety

/-! ## Reset -/

/-- With no cell listed, memory reads as its reset content (R23). -/
theorem State.readByte_of_mem_nil {s : State} (h : s.mem = []) (a : Nat) :
    s.readByte a = Memory.unlisted s.font a := by
  rw [State.readByte, h]
  rfl

theorem Memory.unlisted_of_lt (font : Vector Byte 80) (a : Fin 80) : Memory.unlisted font a = font[a] :=
  dif_pos a.isLt

theorem Memory.unlisted_of_le (font : Vector Byte 80) {a : Nat} (h : 0x050 ≤ a) : Memory.unlisted font a = 0x00#8 :=
  dif_neg (Nat.not_lt.2 h)

/-- A `reset` is `resetCore` (R71). -/
theorem step_of_reset {s : State} (ho : s.nextOp = .reset) : step s = .next s.resetCore.consume := by
  simp [step, State.transition, ho, State.apply]

/-- The values of the reset table (10_state section 9), whatever FONT is. -/
structure HasResetValues (s : State) : Prop where
  font : ∀ a : Fin 80, s.readByte a = s.font[a]
  zero : ∀ a : Nat, 0x050 ≤ a → a ≤ 0xFFF → s.readByte a = 0x00#8
  regs : ∀ x : Nibble, s.reg x = 0x00#8
  pc : s.pc = 0x0200#16
  index : s.index = 0x0000#16
  stack : ∀ k : Fin 16, s.stack[k] = 0x0000#16
  sp : s.sp = 0#5
  dt : s.dt = 0x00#8
  st : s.st = 0x00#8
  fb : ∀ row col, Frame.cell s.fb row col = false
  waiting : s.waiting = false
  waitDest : s.waitDest = 0x0#4

theorem hasResetValues_resetCore (s : State) : HasResetValues s.resetCore where
  font a := (State.readByte_of_mem_nil rfl a).trans (Memory.unlisted_of_lt s.font a)
  zero a ha _ := (State.readByte_of_mem_nil rfl a).trans (Memory.unlisted_of_le s.font ha)
  regs x := Vector.getElem_replicate x.isLt
  pc := rfl
  index := rfl
  stack k := Vector.getElem_replicate k.isLt
  sp := rfl
  dt := rfl
  st := rfl
  fb := Frame.cell_clear
  waiting := rfl
  waitDest := rfl

/-- Settles O5: the reset state is its own reset. -/
theorem resetStateValues : Obligations.ResetStateValues := by
  obtain ⟨hfont, hzero, hregs, hpc, hindex, hstack, hsp, hdt, hst, hfb, hwait, hdest⟩ :=
    hasResetValues_resetCore State.reset
  exact ⟨hfont, hzero, hregs, hpc, hindex, hstack, hsp, hdt, hst, hfb, hwait, hdest⟩

/-- Settles O6: the operation is `resetCore`, which keeps FONT and the environment's fields. -/
theorem resetOperationRestoresEverything : Obligations.ResetOperationRestoresEverything := by
  intro s ho
  obtain ⟨hfont, hzero, hregs, hpc, hindex, hstack, hsp, hdt, hst, hfb, hwait, hdest⟩ := hasResetValues_resetCore s
  exact ⟨s.resetCore, step_of_reset ho, hfont, hzero, hregs, hpc, hindex, hstack, hsp, hdt, hst, hfb, hwait, hdest,
    rfl, rfl, rfl, rfl⟩

/-! ## tick_timers and load -/

/-- A `tick_timers` is `tickTimers`, in both states of the core (R73). -/
theorem step_of_tickTimers {s : State} (ho : s.nextOp = .tickTimers) : step s = .next s.tickTimers.consume := by
  simp [step, State.transition, ho, State.apply]

/-- Settles O12: each timer is counted down by `toNat_countDown`. -/
theorem tickCountsTimersDown : Obligations.TickCountsTimersDown := fun s ho =>
  ⟨s.tickTimers, step_of_tickTimers ho, toNat_countDown s.dt, toNat_countDown s.st, rfl⟩

/-- Settles O13: an image that fits is one block write at 0x200. -/
theorem loadPlacesImage : Obligations.LoadPlacesImage := by
  rintro s image ⟨hwf, -⟩ ho hlen
  have hload := (s.loadImage_next _ image).2 ⟨hlen, rfl⟩
  have hstep := (step_of_load ho).trans (congrArg (mapNext State.consume) hload)
  exact ⟨_, hstep, readByte_store s hwf 0x200 image, rfl, keeps_writeFrom s 0x200 image⟩

/-! ## The fetch of a step -/

/-- Settles O9: the fetch answers nothing above 0x0FFE. -/
theorem fetchBeyondMemoryFaults : Obligations.FetchBeyondMemoryFaults := by
  intro s inp ho hw hpc
  have hrun : s.runInstruction = .fault .addressOutOfRange :=
    (s.runInstruction_fault _).2 (.inl ⟨s.fetch_none.2 hpc, rfl⟩)
  exact (step_of_running ho hw).trans ((mapNext_eq_fault _ _ _).2 hrun)

theorem State.runInstruction_of_fetch {s : State} {w : Word} {i : Instr} (hf : s.fetch = some w)
    (hd : decodeWord w = .instr i) : s.runInstruction = exec i s := by
  simp only [State.runInstruction, hf, hd]

/-- A core about to run `i` runs it (R74, R76). -/
theorem step_of_aboutToRun {s : State} {i : Instr} (h : AboutToRun s i) :
    step s = mapNext State.consume (exec i s) := by
  obtain ⟨⟨inp, ho⟩, hw, hpc, hd⟩ := h
  rw [step_of_running ho hw, State.runInstruction_of_fetch (State.fetch_eq_wordAtPc hpc) hd]

theorem State.consume_of_cons {s : State} {op : EnvOp} {rest : List EnvOp} (h : s.agenda = op :: rest) :
    s.consume = { s with agenda := rest } := by
  simp only [State.consume, h]

theorem State.consume_of_nil {s : State} (h : s.agenda = []) : s.consume = { s with draws := s.draws + 1 } := by
  simp only [State.consume, h]

/-- Settles O7: `step_of_aboutToRun`, and the two cases of `consume`. -/
theorem stepRunsDecodedInstruction : Obligations.StepRunsDecodedInstruction := by
  refine ⟨fun s i h _ => step_of_aboutToRun h, fun u => ⟨sameCore_resume u, fun op rest h => ?_, u.consume_schedule,
    fun h => ?_⟩⟩
  · rw [State.consume_of_cons h]
    exact ⟨rfl, rfl⟩
  · rw [State.consume_of_nil h]
    exact ⟨h, rfl⟩

/-! ## A placed word -/

@[simp] theorem tableBytes_toNat (w : Word) : tableBytes 16 w.toNat = bytesOfWord w := by
  rw [tableBytes, Nat.mod_eq_of_lt w.isLt, BitVec.ofNat_toNat, BitVec.setWidth_eq]

/-- The decoder reads from a word's two bytes what it reads from the word. -/
theorem decodeTableWord_toNat {w : Word} {i : Instr} (h : decodeWord w = .instr i) :
    decodeTableWord 16 w.toNat = some i := by
  have hbytes : decode (bytesOfWord w) = .instr i [] := by
    simp only [bytesOfWord, decode, wordOfBytes_bytesOfWord w _ _ rfl, h]
  simp only [decodeTableWord, tableBytes_toNat, hbytes]

theorem State.place_pc (s : State) (bs : List Byte) :
    (s.place bs).pc = if s.pc.toNat + 2 ≤ 4096 then s.pc else 0x200#16 := rfl

theorem State.place_pc_of_le {s : State} (h : s.pc.toNat ≤ 0xFFE) (bs : List Byte) : (s.place bs).pc = s.pc := by
  rw [State.place_pc, if_pos (by omega)]

theorem State.place_pc_le (s : State) (bs : List Byte) : (s.place bs).pc.toNat ≤ 0xFFE := by
  rw [State.place_pc]
  split_ifs
  · omega
  · decide

/-- Placing is a block write where the placed state fetches. -/
theorem State.readByte_place (s : State) (bs : List Byte) (a : Nat) :
    (s.place bs).readByte a = (s.setMem (Memory.writeFrom s.font s.mem (s.place bs).pc.toNat bs)).readByte a := rfl

/-- The word placed in a state in canonical form is the word at its `pc` (R32). -/
theorem wordAtPc_place {s : State} (hwf : Memory.wf s.font s.mem) (w : Word) :
    wordAtPc (s.place (bytesOfWord w)) = w := by
  have hread := readByte_store s hwf (s.place (bytesOfWord w)).pc.toNat (bytesOfWord w)
  rw [wordAtPc, State.readByte_place, State.readByte_place, hread 1 Nat.one_lt_two]
  have hhigh := hread 0 Nat.two_pos
  rw [Nat.add_zero] at hhigh
  rw [hhigh]
  exact wordOfBytes_bytesOfWord w _ _ rfl

/-- The state with a word placed is about to run it (log 24). -/
theorem aboutToRun_place {s : State} {w : Word} {i : Instr} (hwf : Memory.wf s.font s.mem)
    (hd : decodeWord w = .instr i) : AboutToRun (s.place (bytesOfWord w)) i :=
  ⟨s.nextOp_place _, rfl, s.place_pc_le _, (congrArg decodeWord (wordAtPc_place hwf w)).trans hd⟩

/-- Where `pc` is in memory, placing changes the two bytes at it, the wait and the environment's fields. -/
theorem State.place_eq {s : State} (h : s.pc.toNat ≤ 0xFFE) (bs : List Byte) :
    s.place bs =
      { s with mem := (s.place bs).mem, waiting := false, agenda := (s.place bs).agenda,
               schedule := (s.place bs).schedule } := by
  have hpc := State.place_pc_of_le h bs
  conv_rhs => rw [← hpc]
  rfl

/-- Settles O8: the placed state is about to run the instruction, and `place` is one block write. -/
theorem placedWordRunsNext : Obligations.PlacedWordRunsNext := by
  rintro s w i ⟨hwf, -⟩ hd
  rw [State.withFetchWord, tableBytes_toNat]
  refine ⟨decodeTableWord_toNat hd, step_of_aboutToRun (aboutToRun_place hwf hd), fun hpc =>
    ⟨wordAtPc_place hwf w, fun a ha ha' => ?_, State.place_eq hpc _⟩⟩
  rw [State.readByte_place, State.place_pc_of_le hpc]
  refine (keeps_writeFrom s s.pc.toNat (bytesOfWord w)).bytes a ?_
  simp [bytesOfWord, List.range'_succ, ha, ha']

end Sys2Proof.Machine
end

section
/-! The instructions of 41_flow that use the call stack or two registers (R91, R94, R97 to R99). -/

namespace Sys2Proof

theorem decodeWord_packXyn_five (x y n : Nibble) :
    decodeWord (packXyn 0x5#4 x y n) =
      if n = 0x0#4 then .instr (.seReg x y) else .unknown (packXyn 0x5#4 x y n) := by
  simp [decodeWord]

theorem decodeWord_packXyn_nine (x y n : Nibble) :
    decodeWord (packXyn 0x9#4 x y n) =
      if n = 0x0#4 then .instr (.sneReg x y) else .unknown (packXyn 0x9#4 x y n) := by
  simp [decodeWord]

end Sys2Proof

namespace Sys2Proof.Machine

open Sys2Proof.Safety

/-- RET with 1 to 16 entries (R91). -/
theorem execRet_of_depth {s : State} (h : 1 ≤ s.sp.toNat ∧ s.sp.toNat ≤ 16) :
    exec .ret s =
      .next (({ s with sp := s.sp - 1#5 } : State).jump (s.stack[s.sp.toNat - 1]'(by omega) + 2#16)) := by
  have hne : s.sp ≠ 0#5 := fun h0 => by simp [h0] at h
  have hpop := (s.pop_some _ _).2 ⟨h, rfl, rfl⟩
  simp only [exec, execRet, if_neg hne, hpop]

/-- CALL with at most 15 entries (R94). -/
theorem execCall_of_depth {s : State} (h : s.sp.toNat < 16) (nnn : Addr12) :
    exec (.call nnn) s =
      .next (({ s with stack := s.stack.set s.sp.toNat s.pc h, sp := s.sp + 1#5 } : State).jump (addr16 nnn)) := by
  have hne : s.sp ≠ 16#5 := fun h16 => by simp [h16] at h
  have hpush := (s.push_some _ s.pc).2 ⟨h, rfl⟩
  simp only [exec, execCall, if_neg hne, hpush]

/-- Settles O16: `execRet_of_depth`, with the frame of `touched`. -/
theorem returnPopsNewestEntry : Obligations.ReturnPopsNewestEntry := fun _ h =>
  ⟨_, execRet_of_depth h, rfl, toNat_sp_sub_one h.1, exec_keeps (execRet_of_depth h)⟩

/-- Settles O17: the two faults of `execRet_fault`. -/
theorem returnWithoutEntryFaults : Obligations.ReturnWithoutEntryFaults := fun s =>
  ⟨fun h => (execRet_fault s _).2 (.inl ⟨rfl, h⟩), fun h => (execRet_fault s _).2 (.inr ⟨rfl, h⟩)⟩

/-- Settles O20: `execCall_of_depth`, with the frame of `touched`. -/
theorem callPushesOwnAddress : Obligations.CallPushesOwnAddress := fun nnn _ h =>
  ⟨_, execCall_of_depth h nnn, Vector.getElem_set_self h, toNat_sp_add_one h, toNat_addr16 nnn,
    exec_keeps (execCall_of_depth h nnn)⟩

/-- Settles O21: the two faults of `execCall_fault`. -/
theorem callAtFullDepthFaults : Obligations.CallAtFullDepthFaults := fun nnn s =>
  ⟨fun h => (execCall_fault nnn s _).2 (.inl ⟨rfl, h⟩), fun h => (execCall_fault nnn s _).2 (.inr ⟨rfl, h⟩)⟩

/-- Settles O22: RET pops the entry that CALL pushed, its own address. -/
theorem callThenReturnRoundTrip : Obligations.CallThenReturnRoundTrip := by
  intro nnn s h
  obtain ⟨t, ht, hslot, hspt, -, hst⟩ := callPushesOwnAddress nnn s h
  obtain ⟨u, hu, hpc, hspu, htu⟩ := returnPopsNewestEntry t (by omega)
  have hsp : u.sp = s.sp := BitVec.eq_of_toNat_eq (by omega)
  have htu' : KeepsAllBut { slots := [s.sp.toNat], sp := true } t u :=
    { htu with slots := fun k _ => htu.slots k List.not_mem_nil }
  refine ⟨t, u, ht, hu, ?_, hsp, { keeps_trans hst htu' with sp := fun _ => hsp }⟩
  simp only [hpc, hspt, Nat.add_sub_cancel, hslot]

/-- Settles O24: the low digit selects at decode; both instructions are a conditional skip. -/
theorem skipsCompareRegisters : Obligations.SkipsCompareRegisters := by
  intro x y s
  simp only [append_xyn]
  refine ⟨⟨decodeWord_packXyn_five x y _, fun n hn => (decodeWord_packXyn_five x y n).trans (if_neg hn),
      s.skipIf (s.reg x == s.reg y), rfl, skipIf_spec s _ _ beq_iff_eq⟩,
    decodeWord_packXyn_nine x y _, fun n hn => (decodeWord_packXyn_nine x y n).trans (if_neg hn),
    s.skipIf (s.reg x != s.reg y), rfl, skipIf_spec s _ _ bne_iff_ne⟩

/-- Settles O25: the sum of `toNat_addr16_add_byte16` needs no reduction in 16 bits. -/
theorem jumpAddsVZero : Obligations.JumpAddsVZero := fun nnn s =>
  ⟨s.jump (addr16 nnn + byte16 (s.reg 0#4)), rfl, toNat_addr16_add_byte16 nnn _,
    keeps_jump _ _ _ _ (keeps_self _ s)⟩

end Sys2Proof.Machine
end

section
/-! The flagged instructions of 42_alu and RND (R107 to R112). The five flagged ones share one shape: the flag into VF,
then the result into `V[x]` (R100). -/

namespace Sys2Proof.Machine

open Sys2Proof.Safety

theorem toNat_flagByte (c : Bool) : (flagByte c).toNat = if c = true then 1 else 0 := by
  cases c <;> rfl

/-- An instruction whose meaning is one flagged write and the advance of `pc`: the result is in `V[x]` whatever `x` is,
the flag in VF when `x` is not VF, and nothing else changed. -/
theorem exec_setFlagged_advance {i : Instr} {s : State} {flag b : Byte} {x : Nibble}
    (h : exec i s = .next (s.setFlagged flag x b).advance) :
    ∃ t : State, exec i s = .next t ∧ t.reg x = b ∧ (x ≠ 15#4 → t.reg 15#4 = flag) ∧ t.pc = s.pc + 2#16 ∧
      KeepsAllBut { regs := [x, 15#4] } s t := by
  refine ⟨_, h, ?_, fun hx => ?_, rfl, keeps_advance _ _ _ (keeps_setFlagged s flag x b)⟩
  · rw [State.reg_advance, State.reg_setFlagged, if_pos rfl]
  · rw [State.reg_advance, State.reg_setFlagged, if_neg hx.symm, if_pos rfl]

/-- Settles O29: the flag is 1 iff the exact sum is above 255. -/
theorem addSetsCarry : Obligations.AddSetsCarry := by
  intro x y s
  obtain ⟨t, ht, hreg, hvf, hpc, hkeeps⟩ :=
    exec_setFlagged_advance (i := .addReg x y) (s := s) rfl
  refine ⟨t, ht, hreg ▸ BitVec.toNat_add _ _, fun hx => ?_, hpc, hkeeps⟩
  simp [hvf hx, carryFlag, toNat_flagByte]

/-- The difference of two bytes mod 256, the way the spec writes it. -/
theorem toNat_byte_sub (a b : Byte) : (a - b).toNat = (a.toNat + 256 - b.toNat) % 256 := by
  have := b.isLt
  rw [BitVec.toNat_sub]
  omega

/-- Settles O30: the flag is 1 iff `V[x] >= V[y]`. -/
theorem subtractSetsNoBorrow : Obligations.SubtractSetsNoBorrow := by
  intro x y s
  obtain ⟨t, ht, hreg, hvf, hpc, hkeeps⟩ := exec_setFlagged_advance (i := .sub x y) (s := s) rfl
  refine ⟨t, ht, hreg ▸ toNat_byte_sub _ _, fun hx => ?_, hpc, hkeeps⟩
  simp [hvf hx, noBorrowFlag, toNat_flagByte]

/-- Settles O31: the flag is 1 iff `V[y] >= V[x]`. -/
theorem reverseSubtractSetsNoBorrow : Obligations.ReverseSubtractSetsNoBorrow := by
  intro x y s
  obtain ⟨t, ht, hreg, hvf, hpc, hkeeps⟩ := exec_setFlagged_advance (i := .subn x y) (s := s) rfl
  refine ⟨t, ht, hreg ▸ toNat_byte_sub _ _, fun hx => ?_, hpc, hkeeps⟩
  simp [hvf hx, noBorrowFlag, toNat_flagByte]

theorem toNat_lowBitFlag (a : Byte) : (lowBitFlag a).toNat = a.toNat % 2 := by
  rw [lowBitFlag, toNat_flagByte, BitVec.getLsbD, Nat.testBit_zero]
  simp only [decide_eq_true_eq]
  split_ifs <;> omega

theorem toNat_highBitFlag (a : Byte) : (highBitFlag a).toNat = a.toNat / 128 := by
  have := a.isLt
  rw [highBitFlag, toNat_flagByte, BitVec.getLsbD, Nat.testBit_eq_decide_div_mod_eq]
  simp only [decide_eq_true_eq]
  split_ifs <;> omega

/-- Settles O32: the flag is bit 0 of the old `V[x]`; the meaning does not use `y`. -/
theorem shiftRightKeepsLowBit : Obligations.ShiftRightKeepsLowBit := by
  intro x y s
  obtain ⟨t, ht, hreg, hvf, hpc, hkeeps⟩ := exec_setFlagged_advance (i := .shr x y) (s := s) rfl
  refine ⟨fun _ => rfl, t, ht, ?_, fun hx => hvf hx ▸ toNat_lowBitFlag _, hpc, hkeeps⟩
  rw [hreg, BitVec.toNat_ushiftRight, Nat.shiftRight_eq_div_pow, Nat.pow_one]

/-- Settles O33: the flag is bit 7 of the old `V[x]`; the meaning does not use `y`. -/
theorem shiftLeftKeepsHighBit : Obligations.ShiftLeftKeepsHighBit := by
  intro x y s
  obtain ⟨t, ht, hreg, hvf, hpc, hkeeps⟩ := exec_setFlagged_advance (i := .shl x y) (s := s) rfl
  refine ⟨fun _ => rfl, t, ht, ?_, fun hx => hvf hx ▸ toNat_highBitFlag _, hpc, hkeeps⟩
  rw [hreg, BitVec.toNat_shiftLeft, Nat.shiftLeft_eq, Nat.pow_one]

/-- Settles O34: the byte written is the AND of the step's random byte and `kk`. -/
theorem randomIsMasked : Obligations.RandomIsMasked := by
  intro x kk s inp ho
  obtain ⟨t, ht, hreg, hpc, hkeeps⟩ :=
    exec_setReg_advance (rfl : exec (.rnd x kk) s = .next (s.setReg x (s.inputs.rnd &&& kk)).advance)
  refine ⟨t, ht, fun k _ => ?_, hpc, hkeeps⟩
  rw [hreg, s.inputs_of_step inp ho, BitVec.getLsbD_and]

end Sys2Proof.Machine
end

section
/-! The instructions of 43_index_memory that compute `I` or move a block (R122 to R126), and those of 45_keys_timers
that look at the keys or begin a wait (R140, R141, R143, R146). -/

namespace Sys2Proof.Machine

open Sys2Proof.Safety

/-- Settles O36: the word written is a sum of two words, which wraps at 65536. -/
theorem addToIndexWraps : Obligations.AddToIndexWraps := by
  intro x s
  obtain ⟨t, ht, hindex, hpc, hkeeps⟩ :=
    exec_setIndex_advance (rfl : exec (.addI x) s = .next (s.setIndex (s.index + byte16 (s.reg x))).advance)
  refine ⟨t, ht, ?_, hpc, hkeeps⟩
  rw [hindex, BitVec.toNat_add, toNat_byte16]

theorem toNat_fontAddr (b : Byte) : (fontAddr b).toNat = b.toNat * 5 := by
  have := b.isLt
  exact Nat.mod_eq_of_lt (by omega)

/-- Settles O37: five times a byte fits in 16 bits. -/
theorem fontAddressIsFiveTimesDigit : Obligations.FontAddressIsFiveTimesDigit := by
  intro x s
  obtain ⟨t, ht, hindex, hpc, hkeeps⟩ :=
    exec_setIndex_advance (rfl : exec (.ldF x) s = .next (s.setIndex (fontAddr (s.reg x))).advance)
  exact ⟨t, ht, hindex ▸ toNat_fontAddr _, hpc, hkeeps⟩

/-- An instruction whose meaning is a block stored through `I` and the advance of `pc`: the block is read back byte by
byte, and nothing else changed. -/
theorem exec_store_advance {i : Instr} {s : State} {bs : List Byte} (hwf : Memory.wf s.font s.mem)
    (h : exec i s = .next (s.setMem (Memory.writeFrom s.font s.mem s.index.toNat bs)).advance) :
    ∃ t : State, exec i s = .next t ∧
      (∀ (k : Nat) (hk : k < bs.length), t.readByte (s.index.toNat + k) = bs[k]) ∧
      t.pc = s.pc + 2#16 ∧ KeepsAllBut { bytes := List.range' s.index.toNat bs.length } s t :=
  ⟨_, h, readByte_store s hwf s.index.toNat bs, rfl, keeps_advance _ _ _ (keeps_writeFrom s _ bs)⟩

/-- The three digits of a byte are bytes themselves (R124). -/
theorem toNat_ofNat_of_lt_ten {d : Nat} (h : d < 10) : (BitVec.ofNat 8 d).toNat = d :=
  Nat.mod_eq_of_lt (by omega)

/-- Settles O38: the block stored is `bcdDigits`. -/
theorem bcdStoresDigits : Obligations.BcdStoresDigits := by
  rintro x s ⟨hwf, -⟩ hi
  have hlt := (s.reg x).isLt
  have hstore := (s.storeAtI_some _ (bcdDigits (s.reg x))).2 ⟨(inRange_succ _ 2).2 hi, rfl⟩
  obtain ⟨t, ht, hread, hpc, hkeeps⟩ := exec_store_advance (i := .ldB x) (bs := bcdDigits (s.reg x)) hwf
    (by simp only [exec, execLdB, hstore])
  refine ⟨t, ht, ?_, ?_, ?_, hpc, hkeeps⟩
  · exact (congrArg BitVec.toNat (hread 0 (by simp))).trans (toNat_ofNat_of_lt_ten (by omega))
  · exact (congrArg BitVec.toNat (hread 1 (by simp))).trans (toNat_ofNat_of_lt_ten (by omega))
  · exact (congrArg BitVec.toNat (hread 2 (by simp))).trans (toNat_ofNat_of_lt_ten (by omega))

theorem State.getElem_regBlock (s : State) (x k : Nibble) (h : k.toNat < (s.regBlock x).length) :
    (s.regBlock x)[k.toNat] = s.reg k := by
  simp [State.regBlock, State.reg]

/-- Settles O39: the block stored is `regBlock`. -/
theorem blockStoreWritesEachRegister : Obligations.BlockStoreWritesEachRegister := by
  rintro x s ⟨hwf, -⟩ hi
  have hstore := (s.storeAtI_some _ (s.regBlock x)).2
    ⟨by rw [s.length_regBlock, inRange_succ]; exact hi, rfl⟩
  obtain ⟨t, ht, hread, hpc, hkeeps⟩ := exec_store_advance (i := .stRegs x) (bs := s.regBlock x) hwf
    (by simp only [exec, execStRegs, hstore])
  rw [s.length_regBlock] at hkeeps
  refine ⟨t, ht, fun k hk => ?_, hpc, hkeeps⟩
  have hlt : k.toNat < (s.regBlock x).length := by
    rw [s.length_regBlock]
    exact Nat.lt_succ_of_le hk
  exact (hread k.toNat hlt).trans (s.getElem_regBlock x k hlt)

/-- Settles O40: the block read is written to the registers by `regsFrom`. -/
theorem blockLoadReadsEachRegister : Obligations.BlockLoadReadsEachRegister := by
  intro x s hi
  have hblock := (s.blockAtI_some (x.toNat + 1) _).2 ⟨(inRange_succ _ _).2 hi, rfl⟩
  refine ⟨(s.setV (regsFrom s.v 0 (Memory.readFrom s.font s.mem s.index.toNat (x.toNat + 1)))).advance,
    by simp only [exec, execLdRegs, hblock], fun k hk => ?_, rfl, keeps_advance _ _ _ (keeps_setV_readFrom s _ x)⟩
  rw [State.reg_advance, reg_setV_readFrom, if_pos (Nat.lt_succ_of_le hk)]

/-- The key a skip looks at, in the snapshot of its step (R140, R146). -/
theorem State.keyDown_of_step {s : State} {inp : Inputs} (ho : s.nextOp = .step inp) (x : Nibble) :
    s.keyDown x = inp.keys.getLsbD ((s.reg x).toNat % 16) := by
  rw [State.keyDown, s.inputs_of_step inp ho]

/-- Settles O45: both instructions are a conditional skip, on `keyDown` and on its negation. -/
theorem keySkipsReadSnapshot : Obligations.KeySkipsReadSnapshot := by
  intro x s inp ho
  rw [← State.keyDown_of_step ho]
  exact ⟨⟨s.skipIf (s.keyDown x), rfl, skipIf_spec s _ _ Iff.rfl⟩,
    s.skipIf (!s.keyDown x), rfl, skipIf_spec s _ _ (by simp)⟩

/-- Settles O46: Fx0A is `beginWait` alone. -/
theorem keyWaitBegins : Obligations.KeyWaitBegins := fun x s =>
  ⟨s.beginWait x, rfl, rfl, rfl, rfl, keeps_beginWait s x⟩

end Sys2Proof.Machine
end

section
/-! DRW (44_display R130, R132). A draw toggles the cells of a list of pixels in turn. No pixel stands in the list
twice, so each cell is toggled at most once, and the collision is that of the display before the draw. -/

namespace Sys2Proof.Machine

open Sys2Proof.Safety

/-! ## Toggling a list of cells -/

/-- A cell of the display. -/
abbrev Pixel := Fin 32 × Fin 64

/-- One cell flipped, and whether it was set. -/
def toggle (acc : Frame × Bool) (p : Pixel) : Frame × Bool :=
  (Frame.flip acc.1 p.1 p.2, acc.2 || Frame.cell acc.1 p.1 p.2)

theorem cell_foldl_toggle (ps : List Pixel) (hnodup : ps.Nodup) (f : Frame) (coll : Bool) (row : Fin 32)
    (col : Fin 64) :
    Frame.cell (ps.foldl toggle (f, coll)).1 row col = (Frame.cell f row col ^^ decide ((row, col) ∈ ps)) := by
  induction ps generalizing f coll with
  | nil => simp
  | cons p ps ih =>
    obtain ⟨hnotMem, hnodup⟩ := List.nodup_cons.1 hnodup
    rw [List.foldl_cons, toggle, ih hnodup, Frame.cell_flip]
    by_cases hp : (row, col) = p
    · subst hp
      simp [hnotMem]
    · have hne : ¬ (row = p.1 ∧ col = p.2) := fun h => hp (Prod.ext h.1 h.2)
      simp [hne, hp]

theorem collision_foldl_toggle (ps : List Pixel) (hnodup : ps.Nodup) (f : Frame) (coll : Bool) :
    (ps.foldl toggle (f, coll)).2 = (coll || ps.any fun p => Frame.cell f p.1 p.2) := by
  induction ps generalizing f coll with
  | nil => simp
  | cons p ps ih =>
    obtain ⟨hnotMem, hnodup⟩ := List.nodup_cons.1 hnodup
    have hrest : (ps.any fun q => Frame.cell (Frame.flip f p.1 p.2) q.1 q.2) =
        ps.any fun q => Frame.cell f q.1 q.2 := by
      rw [Bool.eq_iff_iff, List.any_eq_true, List.any_eq_true]
      refine exists_congr fun q => and_congr_right fun hq => ?_
      have hne : ¬ (q.1 = p.1 ∧ q.2 = p.2) := fun h => hnotMem (Prod.ext h.1 h.2 ▸ hq)
      rw [Frame.cell_flip, if_neg hne]
    rw [List.foldl_cons, toggle, ih hnodup, List.any_cons, Bool.or_assoc, hrest]

/-! ## The pixels of a sprite -/

/-- The cell of sprite row `r` and column `c` of a sprite drawn at column `px`, row `py` (R130). -/
def pixelAt (px py r c : Nat) : Pixel := (Fin.ofNat 32 (py + r), Fin.ofNat 64 (px + c))

/-- The cells of the set bits of one sprite row. -/
def rowPixels (px py r : Nat) (b : Byte) : List Pixel :=
  ((List.range 8).filter fun c => b.getLsbD (7 - c)).map (pixelAt px py r)

/-- The cells of the set bits of the sprite rows `r`, `r + 1`, .... -/
def spritePixels (px py r : Nat) : List Byte → List Pixel
  | [] => []
  | b :: bs => rowPixels px py r b ++ spritePixels px py (r + 1) bs

theorem drawRow_eq_toggle (px py r : Nat) (b : Byte) (acc : Frame × Bool) :
    drawRow px py r b acc = (rowPixels px py r b).foldl toggle acc := by
  rw [drawRow, rowPixels, List.foldl_map, List.foldl_filter]
  rfl

theorem drawRows_eq_toggle (px py r : Nat) (bs : List Byte) (acc : Frame × Bool) :
    drawRows px py r bs acc = (spritePixels px py r bs).foldl toggle acc := by
  induction bs generalizing r acc with
  | nil => rfl
  | cons b bs ih => rw [drawRows, spritePixels, List.foldl_append, ih, drawRow_eq_toggle]

theorem mem_rowPixels (px py r : Nat) (b : Byte) (p : Pixel) :
    p ∈ rowPixels px py r b ↔ ∃ c, c < 8 ∧ b.getLsbD (7 - c) = true ∧ p = pixelAt px py r c := by
  simp only [rowPixels, List.mem_map, List.mem_filter, List.mem_range, and_assoc, eq_comm (b := p)]

theorem mem_spritePixels (px py r : Nat) (bs : List Byte) (p : Pixel) :
    p ∈ spritePixels px py r bs ↔
      ∃ k c, ∃ b, bs[k]? = some b ∧ c < 8 ∧ b.getLsbD (7 - c) = true ∧ p = pixelAt px py (r + k) c := by
  induction bs generalizing r with
  | nil => simp [spritePixels]
  | cons b bs ih =>
    rw [spritePixels, List.mem_append, mem_rowPixels, ih]
    constructor
    · rintro (⟨c, h⟩ | ⟨k, c, b', hb', hc, hbit, hp⟩)
      · exact ⟨0, c, b, rfl, h⟩
      · exact ⟨k + 1, c, b', hb', hc, hbit, by rw [hp, Nat.add_right_comm, Nat.add_assoc]⟩
    · rintro ⟨k, c, b', hb', hc, hbit, hp⟩
      cases k with
      | zero =>
        cases hb'
        exact .inl ⟨c, hc, hbit, hp⟩
      | succ k => exact .inr ⟨k, c, b', hb', hc, hbit, by rw [hp, Nat.add_right_comm, Nat.add_assoc]⟩

/-- Two columns of one sprite row never wrap onto one another: 8 is at most 64. -/
theorem pixelAt_col_inj {px py r r' c c' : Nat} (hc : c < 8) (hc' : c' < 8)
    (h : pixelAt px py r c = pixelAt px py r' c') : c = c' := by
  have hcol : (px + c) % 64 = (px + c') % 64 := congrArg (fun p : Pixel => p.2.val) h
  omega

/-- Two rows of one sprite never wrap onto one another: 16 is at most 32. -/
theorem pixelAt_row_inj {px py r r' c c' : Nat} (hlt : r < r' + 32) (hlt' : r' < r + 32)
    (h : pixelAt px py r c = pixelAt px py r' c') : r = r' := by
  have hrow : (py + r) % 32 = (py + r') % 32 := congrArg (fun p : Pixel => p.1.val) h
  omega

theorem nodup_rowPixels (px py r : Nat) (b : Byte) : (rowPixels px py r b).Nodup := by
  refine List.Nodup.map_on (fun c hc c' hc' h => ?_) (List.nodup_range.filter _)
  have hlt : c < 8 := List.mem_range.1 (List.mem_of_mem_filter hc)
  have hlt' : c' < 8 := List.mem_range.1 (List.mem_of_mem_filter hc')
  exact pixelAt_col_inj hlt hlt' h

theorem nodup_spritePixels (px py r : Nat) (bs : List Byte) (hlen : bs.length ≤ 16) :
    (spritePixels px py r bs).Nodup := by
  induction bs generalizing r with
  | nil => exact List.nodup_nil
  | cons b bs ih =>
    rw [List.length_cons] at hlen
    refine List.Nodup.append (nodup_rowPixels px py r b) (ih (r + 1) (by omega)) fun p hp hp' => ?_
    obtain ⟨c, -, -, hpc⟩ := (mem_rowPixels px py r b p).1 hp
    obtain ⟨k, c', b', hb', -, -, hpk⟩ := (mem_spritePixels px py (r + 1) bs p).1 hp'
    have hk : k < bs.length := (List.getElem?_eq_some_iff.1 hb').1
    have := pixelAt_row_inj (by omega) (by omega) (hpc.symm.trans hpk)
    omega

/-! ## One draw -/

/-- The cells of the sprite that `Dxyn` draws in `s`. -/
def State.drawnPixels (s : State) (x y n : Nibble) : List Pixel :=
  spritePixels (s.spriteCol x) (s.spriteRow y) 0 (Memory.readFrom s.font s.mem s.index.toNat n.toNat)

theorem eq_pixelAt_iff (vx vy r c : Nat) (row : Fin 32) (col : Fin 64) :
    (row, col) = pixelAt (vx % 64) (vy % 32) r c ↔ row.val = (vy + r) % 32 ∧ col.val = (vx + c) % 64 := by
  rw [pixelAt, Prod.mk.injEq, Fin.ext_iff, Fin.ext_iff, Fin.val_ofNat, Fin.val_ofNat, Nat.mod_add_mod,
    Nat.mod_add_mod]

theorem State.mem_drawnPixels (s : State) (x y n : Nibble) (row : Fin 32) (col : Fin 64) :
    (row, col) ∈ s.drawnPixels x y n ↔ SpriteCovers s x y n row col := by
  rw [State.drawnPixels, mem_spritePixels]
  simp only [Memory.getElem?_readFrom, Nat.zero_add, State.spriteCol, State.spriteRow, eq_pixelAt_iff]
  constructor
  · rintro ⟨r, c, b, hb, hc, hbit, hrow, hcol⟩
    split_ifs at hb with hrn
    cases hb
    exact ⟨r, c, hrn, hc, hrow, hcol, hbit⟩
  · rintro ⟨r, c, hrn, hc, hrow, hcol, hbit⟩
    exact ⟨r, c, _, if_pos hrn, hc, hbit, hrow, hcol⟩

theorem State.nodup_drawnPixels (s : State) (x y n : Nibble) : (s.drawnPixels x y n).Nodup :=
  nodup_spritePixels _ _ _ _ ((Memory.length_readFrom _ _ _ _).trans_le n.isLt.le)

/-- A draw in range: the covered cells toggled, VF the collision with the display before the draw. -/
theorem exec_drw_toggles {x y n : Nibble} {s : State} (hr : InRange s.index.toNat n.toNat) :
    ∃ t : State, exec (.drw x y n) s = .next t ∧
      (∀ row col, Frame.cell t.fb row col =
        (Frame.cell s.fb row col ^^ decide ((row, col) ∈ s.drawnPixels x y n))) ∧
      t.reg 15#4 = flagByte ((s.drawnPixels x y n).any fun p => Frame.cell s.fb p.1 p.2) ∧
      t.pc = s.pc + 2#16 ∧ KeepsAllBut { regs := [15#4], fb := true } s t := by
  have hblock := (s.blockAtI_some n.toNat _).2 ⟨hr, rfl⟩
  have hnodup := s.nodup_drawnPixels x y n
  have hexec : exec (.drw x y n) s = .next
      ((s.setFb ((s.drawnPixels x y n).foldl toggle (s.fb, false)).1).setReg vf
        (collisionFlag ((s.drawnPixels x y n).foldl toggle (s.fb, false)).2)).advance := by
    simp only [exec, execDrw, hblock, drawRows_eq_toggle, State.drawnPixels]
  refine ⟨_, hexec, cell_foldl_toggle _ hnodup s.fb false, ?_, rfl, exec_keeps hexec⟩
  rw [State.reg_advance, State.reg_setReg_self, collision_foldl_toggle _ hnodup, Bool.false_or, collisionFlag]

theorem inRange_of_sprite {base n : Nat} (h : n = 0 ∨ base + n - 1 ≤ 0xFFF) : InRange base n := by
  by_contra hr
  have := (not_inRange_sprite base n).1 hr
  omega

/-- Settles O43: a covered cell that was set is one that the draw clears. -/
theorem drawXorsWrappedSprite : Obligations.DrawXorsWrappedSprite := by
  intro x y n s hr
  obtain ⟨t, ht, hcell, hvf, hpc, hkeeps⟩ := exec_drw_toggles (x := x) (y := y) (inRange_of_sprite hr)
  refine ⟨t, ht, fun row col => ?xor, fun ⟨row, col, hset, hclear⟩ => ?collision, fun hall => ?noCollision, hpc, hkeeps⟩
  case xor =>
    rw [hcell, ← s.mem_drawnPixels]
    cases Frame.cell s.fb row col <;> simp
  case collision =>
    have hmem : (row, col) ∈ s.drawnPixels x y n := by simpa [hset, hclear] using hcell row col
    rw [hvf, List.any_eq_true.2 ⟨(row, col), hmem, hset⟩]
    rfl
  case noCollision =>
    have hnone : ((s.drawnPixels x y n).any fun p => Frame.cell s.fb p.1 p.2) = false := by
      rw [List.any_eq_false]
      rintro ⟨row, col⟩ hmem hset
      simpa [hset, hall row col hset, hmem] using hcell row col
    rw [hvf, hnone]
    rfl

/-- Settles O44: the first draw changes nothing that the sprite is made of, so the second covers the same cells. -/
theorem drawTwiceRestoresDisplay : Obligations.DrawTwiceRestoresDisplay := by
  intro x y n s hx hy hr
  obtain ⟨t, ht, hcellt, hvft, -, hkeeps⟩ := exec_drw_toggles (x := x) (y := y) (inRange_of_sprite hr)
  have hindex : t.index = s.index := hkeeps.index rfl
  obtain ⟨u, hu, hcellu, hvfu, -, -⟩ :=
    exec_drw_toggles (x := x) (y := y) (n := n) (s := t) (hindex ▸ inRange_of_sprite hr)
  have hsame : ∀ row col, (row, col) ∈ t.drawnPixels x y n ↔ (row, col) ∈ s.drawnPixels x y n := by
    intro row col
    have hregx : t.reg x = s.reg x := hkeeps.regs x (by simpa using hx)
    have hregy : t.reg y = s.reg y := hkeeps.regs y (by simpa using hy)
    simp only [State.mem_drawnPixels, SpriteCovers, hregx, hregy, hindex, hkeeps.bytes _ List.not_mem_nil]
  refine ⟨t, u, ht, hu, Frame.ext_cell _ _ fun row col => ?restored,
    fun hclear ⟨row, col, hcovers⟩ => ⟨?first, ?second⟩⟩
  case restored => simp [hcellu, hcellt, hsame]
  case first =>
    have hnone : ((s.drawnPixels x y n).any fun p => Frame.cell s.fb p.1 p.2) = false := by
      rw [List.any_eq_false]
      rintro ⟨row, col⟩ hmem
      simp [hclear row col ((s.mem_drawnPixels x y n row col).1 hmem)]
    rw [hvft, hnone]
    rfl
  case second =>
    have hmem : (row, col) ∈ s.drawnPixels x y n := (s.mem_drawnPixels x y n row col).2 hcovers
    have hset : Frame.cell t.fb row col = true := by simp [hcellt, hclear row col hcovers, hmem]
    rw [hvfu, List.any_eq_true.2 ⟨(row, col), (hsame row col).2 hmem, hset⟩]
    rfl

end Sys2Proof.Machine
end

section
/-! Runs that leave the core as it is (40_operations section 8): a jump to itself, and a wait that nothing answers. Both
are a `step` that only takes its operation off the agenda, any number of times. -/

namespace Sys2Proof.Machine

open Sys2Proof.Safety

/-- If each of the pending steps, whatever follows it, only leaves the agenda, a run of them does no more. -/
theorem runsTo_of_idle_steps (s : State) (inputs : List Inputs) (rest : List EnvOp)
    (hidle : ∀ inp ∈ inputs, ∀ ops, step { s with agenda := .step inp :: ops } = .next { s with agenda := ops }) :
    RunsTo inputs.length { s with agenda := inputs.map EnvOp.step ++ rest } { s with agenda := rest } := by
  induction inputs with
  | nil => rfl
  | cons inp inputs ih =>
    have hfirst := hidle inp List.mem_cons_self (inputs.map EnvOp.step ++ rest)
    exact (run_succ _ _ _).2 ⟨_, hfirst, ih fun inp' h => hidle inp' (List.mem_cons_of_mem _ h)⟩

/-- The jump to the instruction's own address changes nothing. -/
theorem execJp_self {s : State} {nnn : Addr12} (h : nnn.toNat = s.pc.toNat) : exec (.jp nnn) s = .next s := by
  have htarget : addr16 nnn = s.pc := BitVec.eq_of_toNat_eq ((toNat_addr16 nnn).trans h)
  exact congrArg (fun w => Host.Outcome.next (s.jump w)) htarget

/-- Settles O59: with any pending `step` first, the core is about to run the jump again. -/
theorem jumpToItselfSpins : Obligations.JumpToItselfSpins := by
  rintro s nnn inputs rest ⟨-, hw, hpc, hd⟩ hself hagenda
  have hrun := runsTo_of_idle_steps s inputs rest fun inp _ ops => by
    have habout : AboutToRun { s with agenda := .step inp :: ops } (.jp nnn) := ⟨⟨inp, rfl⟩, hw, hpc, hd⟩
    rw [step_of_aboutToRun habout, execJp_self (s := { s with agenda := .step inp :: ops }) hself]
    rfl
  rwa [← hagenda] at hrun

/-- Settles O60: an unanswered `step` during a wait holds it. -/
theorem unansweredWaitPersists : Obligations.UnansweredWaitPersists := by
  intro s inputs rest hw hagenda hun
  have hrun := runsTo_of_idle_steps s inputs rest fun inp hinp ops => by
    rw [step_of_waiting { s with agenda := .step inp :: ops } inp rfl hw,
      State.resolveWait_of_unanswered { s with agenda := .step inp :: ops } (hun inp hinp)]
    rfl
  rwa [← hagenda] at hrun

end Sys2Proof.Machine
end
